-- ==== Sys2Proof/Word.lean ====
section
/-! DEFINITION. The word types of the romprogrammer command core: the byte every port carries (00_scope.md R13), the
16-bit length and CRC fields, and the 32-bit address fields (20_memory.md R38). -/

namespace Sys2Proof

/-- A byte: 8 bits, an unsigned integer in 0..255 (R13). -/
abbrev Byte := BitVec 8

/-- A `u16`: the `total_length` field (R62) and the CRC accumulator (R122). -/
abbrev Half := BitVec 16

/-- A `u32`: an address field on the wire and the flash port's `addr` (R38, R41). -/
abbrev Addr := BitVec 32

end Sys2Proof
end

