-- ==== Sys2Proof/Machine/Crc16.lean ====
section
/-! DEFINITION. The CRC-16 of the `Crc` command (44_commands.md R122): polynomial 0x1021, most significant bit first, no
reflection, no final XOR, initial value 0. -/

namespace Sys2Proof.Machine

/-- One shift of the CRC register (R122). -/
def crcShift (c : Half) : Half :=
  if c.getLsbD 15 then (c <<< 1) ^^^ 0x1021#16 else c <<< 1

/-- `n` shifts. -/
def crcShifts : Nat → Half → Half
  | 0, c => c
  | n + 1, c => crcShifts n (crcShift c)

/-- Folding one byte into the running CRC (R122). -/
def crcByte (c : Half) (b : Byte) : Half :=
  crcShifts 8 (c ^^^ (b.setWidth 16 <<< 8))

/-- `Crc16(bytes)` (R122). -/
def crc16 (bytes : List Byte) : Half :=
  bytes.foldl crcByte 0x0000#16

end Sys2Proof.Machine
end

