-- ==== Sys2Proof/Machine/Bytes.lean ====
section
/-! DEFINITION. Byte order: the little-endian helpers of 00_scope.md R14, in the one place where it is decided (20_memory.md
R44). -/

namespace Sys2Proof

/-- `LE16(v) = [v[7:0], v[15:8]]` (R14). -/
def le16 (v : Half) : List Byte :=
  [v.extractLsb' 0 8, v.extractLsb' 8 8]

/-- `LE32(v) = [v[7:0], v[15:8], v[23:16], v[31:24]]` (R14). -/
def le32 (v : Addr) : List Byte :=
  [v.extractLsb' 0 8, v.extractLsb' 8 8, v.extractLsb' 16 8, v.extractLsb' 24 8]

/-- `rdLE16` of the two bytes `b0`, `b1` (R14), in exact arithmetic. -/
def rdLE16 (b0 b1 : Byte) : Nat :=
  b0.toNat + 256 * b1.toNat

/-- `rdLE32` of four bytes (R14), as the u32 it is. -/
def rdLE32 (b0 b1 b2 b3 : Byte) : Addr :=
  BitVec.ofNat 32 (b0.toNat + 2 ^ 8 * b1.toNat + 2 ^ 16 * b2.toNat + 2 ^ 24 * b3.toNat)

/-- Byte `i` of the number `w`: bits `8i+7 .. 8i`. -/
def byteAt (w i : Nat) : Byte :=
  BitVec.ofNat 8 (w / 2 ^ (8 * i))

end Sys2Proof
end

