-- ==== Sys2Proof/Machine/Operands.lean ====
section
/-! DEFINITION. The operand forms: splitting a decoded frame into header and payload (41_packet.md R91) and the payload's
fields (R92). Each reader checks the length before it reads a field. -/

namespace Sys2Proof

/-- `ParseHeader(f)` (R91): the opcode and the payload of a frame whose `total_length` is its decoded length; `none` is
R91's `Bad`. -/
def parseHeader : List Byte → Option (Byte × List Byte)
  | op :: l0 :: l1 :: payload =>
    if rdLE16 l0 l1 = payload.length + 3 then some (op, payload) else none
  | _ => none

/-- The payload form `addr32-len8` of `Read`: exactly five bytes (R92). -/
def addrLenFields : List Byte → Option (Addr × Byte)
  | [a0, a1, a2, a3, len] => some (rdLE32 a0 a1 a2 a3, len)
  | _ => none

/-- The payload form `addr32-data` of `Write`: four address bytes and at least one data byte (R92). -/
def addrDataFields : List Byte → Option (Addr × List Byte)
  | a0 :: a1 :: a2 :: a3 :: d :: data => some (rdLE32 a0 a1 a2 a3, d :: data)
  | _ => none

/-- The payload form `range32` of `Crc` and `EraseSector`: exactly eight bytes, start before end (R92). -/
def rangeFields : List Byte → Option (Addr × Addr)
  | [s0, s1, s2, s3, e0, e1, e2, e3] => some (rdLE32 s0 s1 s2 s3, rdLE32 e0 e1 e2 e3)
  | _ => none

end Sys2Proof
end

