-- ==== Sys2Proof/Machine/Flags.lean ====
section
/-! DEFINITION. The block has no status flags and no condition codes (10_state.md R28). What takes their place is the status
byte that every reply carries (30_encoding.md R68), whole here. -/

namespace Sys2Proof.Machine

/-- The StatusCode values of R68, in the spec's order. `testMode` is reserved and the block never sends it (R129). -/
inductive StatusCode where
  | none
  | badCommand
  | badAddress
  | badLength
  | testMode
deriving DecidableEq, Repr

/-- The status byte (R68). -/
def StatusCode.code : StatusCode → Byte
  | .none => 0x00#8
  | .badCommand => 0x01#8
  | .badAddress => 0x02#8
  | .badLength => 0x03#8
  | .testMode => 0x04#8

/-- The status a reply's first payload byte stands for; 0x05..0xFF stand for none (R69 (b)). -/
def StatusCode.ofCode (b : Byte) : Option StatusCode :=
  if b = 0x00#8 then some .none
  else if b = 0x01#8 then some .badCommand
  else if b = 0x02#8 then some .badAddress
  else if b = 0x03#8 then some .badLength
  else if b = 0x04#8 then some .testMode
  else Option.none

end Sys2Proof.Machine
end

