-- ==== Sys2Proof/Machine/Packet.lean ====
section
/-! DEFINITION. Building packets (41_packet.md R88, R90). -/

namespace Sys2Proof

/-- `BuildPacket(op, pl) = [op] ++ LE16(3 + |pl|) ++ pl` (R88). -/
def buildPacket (op : Byte) (payload : List Byte) : List Byte :=
  op :: (le16 (BitVec.ofNat 16 (3 + payload.length)) ++ payload)

/-- `NO_OPCODE = 0xFF`: the reply opcode of an empty frame (R11, R65). -/
def noOpcode : Byte := 0xFF#8

namespace Machine

/-- The reply payload `rp` of R67: the status first, and the body only on status `None`. -/
def replyPayload (status : StatusCode) (body : List Byte) : List Byte :=
  match status with
  | .none => StatusCode.none.code :: body
  | st => [st.code]

/-- `BuildReply(op, status, body)` (R90). -/
def buildReply (op : Byte) (status : StatusCode) (body : List Byte) : List Byte :=
  buildPacket op (replyPayload status body)

/-- `ReplyOp(cmd)`: the command's first byte, or `NO_OPCODE` for an empty frame (R107, R65). -/
def replyOp : List Byte → Byte
  | [] => noOpcode
  | op :: _ => op

end Machine
end Sys2Proof
end

