-- ==== Sys2Proof/Syntax.lean ====
section
/-! DEFINITION. The instruction set: the seven command packets (00_scope.md R1), one constructor per row of
spec/opcode_table.json, with the operand fields of 30_encoding.md R66 and 41_packet.md R92. -/

namespace Sys2Proof

/-- A command. A packet that is none of these (a bad header, an unknown opcode, a payload of the wrong length) is rejected
by name in Decode.lean, and the block answers it `BadCommand` (43_dispatcher.md R109). -/
inductive Instr where
  /-- `PING`, opcode 0x00 (R117) -/
  | ping
  /-- `IDENTIFY`, opcode 0x01 (R118) -/
  | identify
  /-- `READ addr, len`, opcode 0x02 (R119) -/
  | read (addr : Addr) (len : Byte)
  /-- `WRITE addr, data`, opcode 0x03 (R120); the data length is implied by `total_length` -/
  | write (addr : Addr) (data : List Byte)
  /-- `CRC start, end`, opcode 0x04 (R121) -/
  | crc (start stop : Addr)
  /-- `ERASE start, end`, opcode 0x05: the table's EraseSector (R123) -/
  | erase (start stop : Addr)
  /-- `ERASECHIP`, opcode 0x06 (R124) -/
  | erasechip
deriving DecidableEq, Repr

end Sys2Proof
end

