-- ==== Sys2Proof/WellFormed.lean ====
section
/-! DEFINITION. Which terms of `Instr` are commands that a packet can carry. -/

namespace Sys2Proof

/-- A command's operands fit its packet: a `Write` carries at least one data byte (R66, R120) and its
`total_length = 7 + n` fits the header's u16 (R62). Every other field has its width in its type. The cap `MTL` on the
number of data bytes is no condition here: the handler answers it `BadLength` (R100). -/
abbrev Instr.wf : Instr → Prop
  | .ping => True
  | .identify => True
  | .read _ _ => True
  | .write _ data => 1 ≤ data.length ∧ 7 + data.length < 65536
  | .crc _ _ => True
  | .erase _ _ => True
  | .erasechip => True

end Sys2Proof
end

