-- ==== Sys2Proof/Decode.lean ====
section
/-! DEFINITION. The decoder from packets to commands, total on any bytes and rejecting by name, and after it the encoder.
The encoding tables are those of 30_encoding.md R62, R64 and R66. -/

namespace Sys2Proof

/-- Why a decoded frame is no command, in the order of 60_exceptions.md R131 (1 to 4). The block answers each of them
`BadCommand` (43_dispatcher.md R109 to R112 and the first check of each handler of 44_commands.md). -/
inductive Reject where
  /-- an empty frame, possible only under `EMPTY_FRAME_POLICY = Emit` (R112) -/
  | emptyFrame
  /-- fewer than three bytes, or `total_length != |f|` (R110) -/
  | badHeader
  /-- opcode 0x07..0xFF (R111) -/
  | unknownOpcode
  /-- a payload whose length does not fit the opcode (R117 to R124) -/
  | badPayloadLength
deriving DecidableEq, Repr

/-- The opcode values of R64. -/
def opPing : Byte := 0x00#8
def opIdentify : Byte := 0x01#8
def opRead : Byte := 0x02#8
def opWrite : Byte := 0x03#8
def opCrc : Byte := 0x04#8
def opErase : Byte := 0x05#8
def opEraseChip : Byte := 0x06#8

/-- A payload that must be empty: `Ping`, `Identify`, `EraseChip` (R92). -/
def decodeBare (i : Instr) (payload : List Byte) : Except Reject Instr :=
  if payload = [] then .ok i else .error .badPayloadLength

/-- The payload of a known opcode, routed by the opcode (R111, R92). -/
def decodePayload (op : Byte) (payload : List Byte) : Except Reject Instr :=
  if op = opPing then decodeBare .ping payload
  else if op = opIdentify then decodeBare .identify payload
  else if op = opRead then
    match addrLenFields payload with
    | some (addr, len) => .ok (.read addr len)
    | none => .error .badPayloadLength
  else if op = opWrite then
    match addrDataFields payload with
    | some (addr, data) => .ok (.write addr data)
    | none => .error .badPayloadLength
  else if op = opCrc then
    match rangeFields payload with
    | some (start, stop) => .ok (.crc start stop)
    | none => .error .badPayloadLength
  else if op = opErase then
    match rangeFields payload with
    | some (start, stop) => .ok (.erase start stop)
    | none => .error .badPayloadLength
  else if op = opEraseChip then decodeBare .erasechip payload
  else .error .unknownOpcode

/-- `Dispatch`'s reading of a completed frame (R109): the command it carries, or why it carries none. -/
def decodeCommand (f : List Byte) : Except Reject Instr :=
  if f = [] then .error .emptyFrame
  else
    match parseHeader f with
    | none => .error .badHeader
    | some (op, payload) => decodePayload op payload

/-- The opcode byte of a command (R64). -/
def Instr.opcode : Instr → Byte
  | .ping => opPing
  | .identify => opIdentify
  | .read _ _ => opRead
  | .write _ _ => opWrite
  | .crc _ _ => opCrc
  | .erase _ _ => opErase
  | .erasechip => opEraseChip

/-- The payload of a command: R66's bytes 3 and up. -/
def Instr.payload : Instr → List Byte
  | .ping => []
  | .identify => []
  | .read addr len => le32 addr ++ [len]
  | .write addr data => le32 addr ++ data
  | .crc start stop => le32 start ++ le32 stop
  | .erase start stop => le32 start ++ le32 stop
  | .erasechip => []

/-- The packet of a command: the command builders of R89, laid out as in R66. -/
def encode (i : Instr) : List Byte :=
  buildPacket i.opcode i.payload

/-- R66's `total_length` of an opcode's shortest packet (a `Write` with one data byte); 3 for an unknown opcode. -/
def shortestLength (op : Byte) : Nat :=
  if op = opRead then 8
  else if op = opWrite then 8
  else if op = opCrc then 11
  else if op = opErase then 11
  else 3

/-- The packet that a word of the opcode table stands for: bit 0 of `w` is the least significant bit of byte 0. The table
gives a row one byte, the opcode (`nbits = 8`). The header's `total_length` is then no operand but the packet's own length, so
it is filled in as R66 has it, and the operand bytes are zero. Where `nbits` reaches beyond the opcode byte, every byte is
`w`'s, and `total_length` in it says how many there are. Assumption log 9. -/
def tablePacket (nbits w : Nat) : List Byte :=
  if nbits ≤ 8 then
    let op := byteAt (w % 2 ^ nbits) 0
    let n := shortestLength op
    op :: (le16 (BitVec.ofNat 16 n) ++ List.replicate (n - 3) 0x00#8)
  else
    let v := w % 2 ^ nbits
    (List.range (max 3 (rdLE16 (byteAt v 1) (byteAt v 2)))).map (byteAt v)

/-- The command the decoder reads from a word of the opcode table. -/
def decodeTableWord (nbits w : Nat) : Option Instr :=
  match decodeCommand (tablePacket nbits w) with
  | .ok i => some i
  | .error _ => none

end Sys2Proof
end

