-- ==== Sys2Proof/Config.lean ====
section
/-! DEFINITION. What an implementation fixes and what the spec leaves free: the static `cfg` inputs (10_state.md R26), the
alphabet of the flash port (20_memory.md R41), and the free values, which are opaque constants with no body. -/

namespace Sys2Proof

/-- `EMPTY_FRAME_POLICY` (R11): what the decoder does with a marker that closes an empty buffer. -/
inductive EmptyFramePolicy where
  | ignore
  | emit
deriving DecidableEq, Repr

/-- The static inputs of the `cfg` port with the widths of R26. They are levels supplied from outside and constant for
the life of the block; `Cfg.legal` (Machine/Params.lean) is R26's list of constraints. -/
structure Cfg where
  /-- `ROM_SIZE` (R5) -/
  romSize : BitVec 32
  /-- `SECTOR_SIZE` (R6) -/
  sectorSize : BitVec 32
  /-- `MTL`, the largest number of data bytes of one `Read` or `Write` (R7) -/
  mtl : BitVec 8
  /-- `FW_MAJOR` (R9) -/
  fwMajor : Byte
  /-- `FW_MINOR` (R9) -/
  fwMinor : Byte
  /-- `MARKER` (R8) -/
  marker : Byte
  /-- `ESCAPE` (R8) -/
  escape : Byte
  /-- `ESC_XOR` (R8) -/
  escXor : Byte
  /-- `ESCAPE_SET` as R26's 256-bit mask: bit `b` is set when byte `b` is escaped (R8) -/
  escapeSet : BitVec 256
  /-- `EMPTY_FRAME_POLICY` (R11) -/
  emptyFrame : EmptyFramePolicy
deriving DecidableEq, Repr

/-- The eight operations of the flash port, in the order of R41's table. -/
inductive FlashOp where
  | readByte
  | writeByte
  | eraseSector
  | eraseChip
  | enterId
  | leaveId
  | readMfrId
  | readDevId
deriving DecidableEq, Repr

/-- `FlashReq(op, addr, wdata)` (R41). -/
structure FlashReq where
  op : FlashOp
  addr : Addr
  wdata : Byte
deriving DecidableEq, Repr

/-- One thing that happened to the flash array: a program or an erase that was performed, or one that a `Reset` cut short
(R141; 93_implementation_defined.md U19). -/
inductive FlashChange where
  | performed (req : FlashReq)
  | interrupted (req : FlashReq)
deriving DecidableEq, Repr

/-- FREE VALUE. The byte cell `a` of the flash holds after the programs and erases that touched it, oldest first.
R33 and U13 to U15 leave it to the flash driver ("any value"), with one constraint: it changes only when a program or an
erase touches the cell (R49, R120, R123). Assumption log 4. -/
opaque Config.flashCell : Nat → List FlashChange → Byte

/-- FREE VALUE. The n-th byte the flash driver answers where the spec constrains it in no way: an ID byte (U16), a byte
read in ID mode, a cell a `Reset` left half-programmed (U19). Assumption log 5. -/
opaque Config.freeByte : Nat → Byte

end Sys2Proof
end

