-- ==== Sys2Proof/Machine/Params.lean ====
section
/-! DEFINITION. What follows from the `cfg` inputs: the derived constants of 00_scope.md R10, membership in `ESCAPE_SET`,
the constraints of 10_state.md R26, and the configuration of the spec's own vectors. -/

namespace Sys2Proof

/-- The 1-bit encoding of `EMPTY_FRAME_POLICY` on the `cfg` port (R26): `Ignore = 0`, `Emit = 1`. -/
def EmptyFramePolicy.code : EmptyFramePolicy → BitVec 1
  | .ignore => 0#1
  | .emit => 1#1

/-- `HDR = 3`: the header's size (R10). -/
def hdr : Nat := 3

/-- `MAX_PACKET = HDR + max(8, 4 + MTL)`: the largest decoded packet (R10). -/
def Cfg.maxPacket (c : Cfg) : Nat :=
  hdr + max 8 (4 + c.mtl.toNat)

/-- `MAX_REPLY = HDR + max(8, 1 + MTL)`: the largest reply packet (R10). -/
def Cfg.maxReply (c : Cfg) : Nat :=
  hdr + max 8 (1 + c.mtl.toNat)

/-- `b in ESCAPE_SET` (R8, R26). -/
def Cfg.inEscapeSet (c : Cfg) (b : Byte) : Bool :=
  c.escapeSet.getLsbD b.toNat

/-- `n = 2^k` for some `0 <= k <= 31` (R5). -/
def isPowerOfTwo (n : Nat) : Bool :=
  (List.range 32).any fun k => 2 ^ k == n

/-- The geometry half of R26: `ROM_SIZE = 2^k`, `k <= 31`; `SECTOR_SIZE = 2^j`, `j <= k`; `MTL` in 1..255. -/
def Cfg.legalGeometry (c : Cfg) : Bool :=
  isPowerOfTwo c.romSize.toNat && isPowerOfTwo c.sectorSize.toNat
    && decide (c.sectorSize.toNat ≤ c.romSize.toNat) && decide (1 ≤ c.mtl.toNat)

/-- The codec half of R26, from R8: `MARKER != ESCAPE`; `ESC_XOR != 0`; `ESCAPE_SET` contains both; and no `b` in it has
`b XOR ESC_XOR = MARKER`. The one `b` with that XOR is `MARKER XOR ESC_XOR`, so that one is tested. -/
def Cfg.legalCodec (c : Cfg) : Bool :=
  decide (c.marker ≠ c.escape) && decide (c.escXor ≠ 0) && c.inEscapeSet c.marker && c.inEscapeSet c.escape
    && !c.inEscapeSet (c.marker ^^^ c.escXor)

/-- Every constraint of R26. A configuration that breaks one is refused (R27). -/
def Cfg.legal (c : Cfg) : Bool :=
  c.legalGeometry && c.legalCodec

/-- The 256-bit mask of a list of bytes (R26). -/
def maskOf (bs : List Byte) : BitVec 256 :=
  bs.foldl (fun m b => m ||| (1#256 <<< b.toNat)) 0#256

/-- The configuration of the spec's vectors (95_test_vectors.md section 0): the default codec parameters of R8 and R11, the
example geometry of R12, and the vectors' values of the OPEN parameters `FW_MAJOR`, `FW_MINOR`. DESIGN CHOICE, assumption
log 1: R12 calls it an example, not the block's configuration. -/
def Cfg.vectors : Cfg where
  romSize := 32768#32
  sectorSize := 4096#32
  mtl := 64#8
  fwMajor := 0x01#8
  fwMinor := 0x00#8
  marker := 0x7E#8
  escape := 0x7D#8
  escXor := 0x20#8
  escapeSet := maskOf [0x7E#8, 0x7D#8]
  emptyFrame := .ignore

end Sys2Proof
end

