-- ==== Sys2Proof/Machine/Codec.lean ====
section
/-! DEFINITION. The frame codec (40_framecodec.md): the decoder's state machine, one input byte a step, and the encoder. Both
ends of the link use it (R8). -/

namespace Sys2Proof.Machine

/-- `dec_state` (R21), 2 bits. `unused` is the encoding 3, which no rule reaches and on which a model faults. -/
inductive DecState where
  | idle
  | inFrame
  | escaped
  | unused
deriving DecidableEq, Repr

/-- The 2-bit encoding of R21. -/
def DecState.code : DecState → BitVec 2
  | .idle => 0#2
  | .inFrame => 1#2
  | .escaped => 2#2
  | .unused => 3#2

/-- The kinds of framing error (R127). -/
inductive FramingError where
  | escapedMarker
  | oversize
deriving DecidableEq, Repr

/-- The decoder's state (R20, R21). `buf` is `rx_buf[0..rx_len)` and `rx_len` its length: the bytes at `rx_len` and above
hold no value and are absent (R34). -/
structure Decoder where
  st : DecState
  buf : List Byte
deriving DecidableEq, Repr

/-- `rx_len` (R20). -/
def Decoder.rxLen (d : Decoder) : Nat := d.buf.length

/-- The decoder right after reset: `Idle`, `rx_len = 0` (R37). -/
def Decoder.fresh : Decoder := ⟨.idle, []⟩

/-- What one decoder step gives: the next decoder state, at most one completed frame and at most one framing error (R74). -/
structure DecOut where
  dec : Decoder
  emit : Option (List Byte)
  err : Option FramingError
deriving DecidableEq, Repr

/-- A step that only moves the decoder. -/
def DecOut.quiet (d : Decoder) : DecOut := ⟨d, none, none⟩

/-- `Append(v)` (R82): a byte more, or the oversize framing error at a full buffer. The test is `>=`, a checked write:
`rx_len` above `MAX_PACKET` is no state of the machine (R20). -/
def appendByte (cfg : Cfg) (buf : List Byte) (v : Byte) : DecOut :=
  if cfg.maxPacket ≤ buf.length then ⟨Decoder.fresh, none, some .oversize⟩
  else .quiet ⟨.inFrame, buf ++ [v]⟩

/-- `InFrame` + `MARKER` (R77): the frame is complete, unless the buffer is empty and the policy is `Ignore`. -/
def closeFrame (cfg : Cfg) (buf : List Byte) : DecOut :=
  if buf = [] ∧ cfg.emptyFrame = .ignore then .quiet ⟨.inFrame, []⟩
  else ⟨Decoder.fresh, some buf, none⟩

/-- `Idle` (R75, R76): a marker opens a frame with a fresh buffer, every other byte is ignored. -/
def stepIdle (cfg : Cfg) (d : Decoder) (b : Byte) : DecOut :=
  if b = cfg.marker then .quiet ⟨.inFrame, []⟩ else .quiet d

/-- `InFrame` (R77, R78, R79). -/
def stepInFrame (cfg : Cfg) (d : Decoder) (b : Byte) : DecOut :=
  if b = cfg.marker then closeFrame cfg d.buf
  else if b = cfg.escape then .quiet ⟨.escaped, d.buf⟩
  else appendByte cfg d.buf b

/-- `Escaped` (R80, R81): a marker is a framing error and opens a fresh frame, any other byte is un-transformed (R59). -/
def stepEscaped (cfg : Cfg) (d : Decoder) (b : Byte) : DecOut :=
  if b = cfg.marker then ⟨⟨.inFrame, []⟩, none, some .escapedMarker⟩
  else appendByte cfg d.buf (b ^^^ cfg.escXor)

/-- `DecStep(b)` (R74); `none` on the unused encoding of `dec_state`, where a model faults (R21). -/
def decStep (cfg : Cfg) (d : Decoder) (b : Byte) : Option DecOut :=
  match d.st with
  | .idle => some (stepIdle cfg d b)
  | .inFrame => some (stepInFrame cfg d b)
  | .escaped => some (stepEscaped cfg d b)
  | .unused => none

/-- What feeding a byte sequence gives: the decoder state after it, the frames and the framing errors in order. -/
structure FeedOut where
  dec : Decoder
  frames : List (List Byte)
  errs : List FramingError
deriving DecidableEq, Repr

/-- `DecStep` over a byte sequence, first byte first (R45). -/
def feed (cfg : Cfg) (d : Decoder) : List Byte → Option FeedOut
  | [] => some ⟨d, [], []⟩
  | b :: bs =>
    match decStep cfg d b with
    | none => none
    | some o =>
      match feed cfg o.dec bs with
      | none => none
      | some r => some ⟨r.dec, o.emit.toList ++ r.frames, o.err.toList ++ r.errs⟩

/-- The wire bytes of one payload byte (R58, R59): itself, or the escape pair. -/
def escapeByte (cfg : Cfg) (b : Byte) : List Byte :=
  if cfg.inEscapeSet b then [cfg.escape, b ^^^ cfg.escXor] else [b]

/-- The body of a frame: its payload bytes' items in order (R58). -/
def frameBody (cfg : Cfg) (p : List Byte) : List Byte :=
  p.flatMap (escapeByte cfg)

/-- `FrameEncode(p)` (R84). -/
def frameEncode (cfg : Cfg) (p : List Byte) : List Byte :=
  cfg.marker :: (frameBody cfg p ++ [cfg.marker])

end Sys2Proof.Machine
end

