-- ==== Sys2Proof/Machine/Memory.lean ====
section
/-! DEFINITION. The array of the reference flash driver (20_memory.md R57) as a list of (address, byte) pairs in one canonical
form: addresses strictly rising, no entry equal to the erased value, which is what an unlisted address reads as. -/

namespace Sys2Proof.Machine

/-- The listed cells of a flash array. -/
abbrev Memory := List Host.Cell

/-- `ERASED_VALUE = 0xFF` of the reference flash model (R57): what an unlisted address reads as. -/
def erasedValue : Byte := 0xFF#8

/-- The canonical form. -/
abbrev Memory.wf (m : Memory) : Prop :=
  m.Pairwise (fun c d => c.1 < d.1) ∧ ∀ c ∈ m, c.2 ≠ erasedValue

/-- `F[a]`. -/
def Memory.read : Memory → Nat → Byte
  | [], _ => erasedValue
  | c :: m, a => if c.1 = a then c.2 else Memory.read m a

/-- A cell put in front, unless it holds the erased value. -/
def Memory.cons (a : Nat) (v : Byte) (m : Memory) : Memory :=
  if v = erasedValue then m else (a, v) :: m

/-- `F[a] <- v`, keeping the canonical form. -/
def Memory.write : Memory → Nat → Byte → Memory
  | [], a, v => Memory.cons a v []
  | c :: m, a, v =>
    if a < c.1 then Memory.cons a v (c :: m)
    else if a = c.1 then Memory.cons a v m
    else c :: Memory.write m a v

/-- `F[lo..hi) <- ERASED_VALUE`. -/
def Memory.eraseRange (m : Memory) (lo hi : Nat) : Memory :=
  m.filter fun c => !(decide (lo ≤ c.1) && decide (c.1 < hi))

/-- Every cell from `lo` on set to the bytes given, in ascending order. -/
def Memory.writeAll (m : Memory) (lo : Nat) : List Byte → Memory
  | [] => m
  | v :: vs => Memory.writeAll (Memory.write m lo v) (lo + 1) vs

end Sys2Proof.Machine
end

