-- ==== Sys2Proof/Machine/Flash.lean ====
section
/-! DEFINITION. The flash port (20_memory.md R41) and the flash driver behind it, an agent of the environment (R33, R138). The
driver's array is one of two: `drawn`, where the spec's treatment "any value" stands (93_implementation_defined.md U13 to U16),
and `reference`, the reference flash model of R57 that the spec's test vectors assume. -/

namespace Sys2Proof

/-- The 3-bit operation number of R41. -/
def FlashOp.code : FlashOp → BitVec 3
  | .readByte => 0#3
  | .writeByte => 1#3
  | .eraseSector => 2#3
  | .eraseChip => 3#3
  | .enterId => 4#3
  | .leaveId => 5#3
  | .readMfrId => 6#3
  | .readDevId => 7#3

/-- The operations whose `rdata` the block takes (R107). -/
def FlashOp.isRead : FlashOp → Bool
  | .readByte => true
  | .readMfrId => true
  | .readDevId => true
  | _ => false

/-- The operations that change the flash array (R49). -/
def FlashOp.changesArray : FlashOp → Bool
  | .writeByte => true
  | .eraseSector => true
  | .eraseChip => true
  | _ => false

/-- `MemRead(a, 1)` as a request (R41): unused fields are zero. -/
def FlashReq.readByte (a : Nat) : FlashReq := ⟨.readByte, BitVec.ofNat 32 a, 0⟩
/-- `MemWrite(a, 1, v)` as a request (R41). -/
def FlashReq.writeByte (a : Nat) (v : Byte) : FlashReq := ⟨.writeByte, BitVec.ofNat 32 a, v⟩
/-- `FlashEraseSector(a)` as a request (R41). -/
def FlashReq.eraseSector (a : Nat) : FlashReq := ⟨.eraseSector, BitVec.ofNat 32 a, 0⟩
/-- The requests with no address and no data (R41). -/
def FlashReq.bare (op : FlashOp) : FlashReq := ⟨op, 0, 0⟩

/-- R43's bounds on the addresses of requests. An address outside them does not exist on the chip (R38), or is no sector's
base. -/
def FlashReq.legal (cfg : Cfg) (q : FlashReq) : Bool :=
  match q.op with
  | .readByte => decide (q.addr.toNat < cfg.romSize.toNat)
  | .writeByte => decide (q.addr.toNat < cfg.romSize.toNat)
  | .eraseSector =>
    decide (q.addr.toNat < cfg.romSize.toNat) && decide (q.addr.toNat % cfg.sectorSize.toNat = 0)
  | _ => true

/-- The cells a request can change: the byte programmed (R120), the sector erased (R123), the whole array (R124). -/
def FlashReq.touches (cfg : Cfg) (q : FlashReq) (a : Nat) : Bool :=
  match q.op with
  | .writeByte => decide (a = q.addr.toNat)
  | .eraseSector => decide (q.addr.toNat ≤ a) && decide (a < q.addr.toNat + cfg.sectorSize.toNat)
  | .eraseChip => true
  | _ => false

/-- The request of a change. -/
def FlashChange.req : FlashChange → FlashReq
  | .performed q => q
  | .interrupted q => q

namespace Machine

/-- The flash array, state of the flash driver (R33). -/
inductive FlashArray where
  /-- any driver: the programs and erases that reached it, oldest first; what a cell holds after those that touched it is
  the free value `Config.flashCell` -/
  | drawn (changes : List FlashChange)
  /-- the reference flash model of R57 -/
  | reference (cells : Memory)
deriving DecidableEq, Repr

/-- The flash driver (R33, R32): its array, its software-ID mode, and how many unconstrained answers it has given. -/
structure Flash where
  array : FlashArray
  idMode : Bool
  /-- The model's own counter: the index of the next `Config.freeByte`. -/
  draws : Nat
deriving DecidableEq, Repr

/-- Reading one byte of the flash array: the model's read of memory, with no side effect (R49). -/
def FlashArray.readCell (cfg : Cfg) (m : FlashArray) (a : Nat) : Byte :=
  match m with
  | .drawn changes => Config.flashCell a (changes.filter fun c => c.req.touches cfg a)
  | .reference cells => cells.read a

/-- The canonical form of the reference array; a drawn array has no other form. -/
abbrev FlashArray.wf : FlashArray → Prop
  | .drawn _ => True
  | .reference cells => cells.wf

/-- The reference array after a performed request (R57): store semantics, erased cells at `ERASED_VALUE`. -/
def referenceAfter (cfg : Cfg) (q : FlashReq) (cells : Memory) : Memory :=
  match q.op with
  | .writeByte => cells.write q.addr.toNat q.wdata
  | .eraseSector => cells.eraseRange q.addr.toNat (q.addr.toNat + cfg.sectorSize.toNat)
  | .eraseChip => []
  | _ => cells

/-- The flash array after a performed request (R49). -/
def FlashArray.after (cfg : Cfg) (q : FlashReq) (m : FlashArray) : FlashArray :=
  match m with
  | .drawn changes => .drawn (if q.op.changesArray then changes ++ [.performed q] else changes)
  | .reference cells => .reference (referenceAfter cfg q cells)

/-- The software-ID mode after a request (R32, R41). -/
def idModeAfter (op : FlashOp) (idMode : Bool) : Bool :=
  match op with
  | .enterId => true
  | .leaveId => false
  | _ => idMode

/-- `MFR_ID = 0xBF` of the reference flash model (R57). -/
def referenceMfrId : Byte := 0xBF#8

/-- `DEV_ID = 0xB7` of the reference flash model (R57). -/
def referenceDevId : Byte := 0xB7#8

/-- The `rdata` of the response to a request (R41): the cell read, or the ID byte; `none` for the operations whose `rdata`
is ignored. A byte the spec does not constrain is a free value: an ID byte of a driver of which nothing is known (U16), and a
byte read in ID mode (R57 says what `readByte` returns outside it only). -/
def Flash.answer (cfg : Cfg) (q : FlashReq) (f : Flash) : Option Byte :=
  match q.op with
  | .readByte =>
    if f.idMode then some (Config.freeByte f.draws) else some (f.array.readCell cfg q.addr.toNat)
  | .readMfrId =>
    match f.array with
    | .drawn _ => some (Config.freeByte f.draws)
    | .reference _ => some referenceMfrId
  | .readDevId =>
    match f.array with
    | .drawn _ => some (Config.freeByte f.draws)
    | .reference _ => some referenceDevId
  | _ => none

/-- Whether the answer to a request is a free value, so that the next one gets the next index. -/
def Flash.answerIsFree (q : FlashReq) (f : Flash) : Bool :=
  match q.op with
  | .readByte => f.idMode
  | .readMfrId =>
    match f.array with
    | .drawn _ => true
    | .reference _ => false
  | .readDevId =>
    match f.array with
    | .drawn _ => true
    | .reference _ => false
  | _ => false

/-- The driver after it performed a request. -/
def Flash.after (cfg : Cfg) (q : FlashReq) (f : Flash) : Flash where
  array := f.array.after cfg q
  idMode := idModeAfter q.op f.idMode
  draws := if f.answerIsFree q then f.draws + 1 else f.draws

/-- The first cell a program or erase can change, and how many (R120, R123, R124). -/
def flashSpan (cfg : Cfg) (q : FlashReq) : Nat × Nat :=
  match q.op with
  | .writeByte => (q.addr.toNat, 1)
  | .eraseSector => (q.addr.toNat, cfg.sectorSize.toNat)
  | .eraseChip => (0, cfg.romSize.toNat)
  | _ => (0, 0)

/-- The driver after a `Reset` cut a request short (R141, U19): every cell under an interrupted program or erase is any value,
the others stay; software-ID mode is left, which R142 (2) has the environment establish before the block's first step. -/
def Flash.interrupt (cfg : Cfg) (q : FlashReq) (f : Flash) : Flash :=
  match f.array with
  | .drawn changes =>
    { array := .drawn (if q.op.changesArray then changes ++ [.interrupted q] else changes)
      idMode := false
      draws := f.draws }
  | .reference cells =>
    { array := .reference (cells.writeAll (flashSpan cfg q).1
        ((List.range (flashSpan cfg q).2).map fun i => Config.freeByte (f.draws + i)))
      idMode := false
      draws := f.draws + (flashSpan cfg q).2 }

end Machine
end Sys2Proof
end

