-- ==== Sys2Proof/Machine/State.lean ====
section
/-! DEFINITION. The machine's state as plain data (10_state.md), why a step can stop, and the state after reset (R37). -/

namespace Sys2Proof.Machine

/-- `phase` (R22), 2 bits. `unused` is the encoding 3, which no rule reaches and on which a model faults. -/
inductive Phase where
  | recv
  | exec
  | send
  | unused
deriving DecidableEq, Repr

/-- The 2-bit encoding of R22. -/
def Phase.code : Phase → BitVec 2
  | .recv => 0#2
  | .exec => 1#2
  | .send => 2#2
  | .unused => 3#2

/-- `exec`, the handler's progress in phase `EXEC` (R24), realised as a counter: how many of the handler's flash transactions
were issued, and the bytes returned so far. R24's `ops_left` is the handler's list, a function of `cmd` and `cfg` (R115), less
its first `issued`. -/
structure Progress where
  issued : Nat
  reads : List Byte
deriving DecidableEq, Repr

/-- What a model observes (R36): the port events, and the ghost event of a framing error. `flashResp none` is the response to an
operation whose `rdata` is ignored (R41). -/
inductive Event where
  | rxByte (b : Byte)
  | txByte (b : Byte)
  | flashReq (q : FlashReq)
  | flashResp (rdata : Option Byte)
  | framingError (kind : FramingError)
deriving DecidableEq, Repr

/-- What the environment's schedule lets happen next. At any time one agent can move: the byte source in `RECV`, the block or
the flash driver in `EXEC`, the sink in `SEND`. -/
inductive Turn where
  /-- the agent that can move does -/
  | go
  /-- nobody moves: no byte is offered, the flash has not answered, the sink accepts nothing (R42, R116; U18, U23, U24) -/
  | stall
  /-- the environment event `Reset` (R141) -/
  | reset
deriving DecidableEq, Repr

/-- The state: the block's (R20 to R25, with the `cfg` inputs of R26), then the environment's (the flash driver, the bytes
the source holds, the schedule), then the observed trace (R36). -/
structure State where
  /-- the `cfg` inputs, constant (R26) -/
  cfg : Cfg
  /-- `phase` (R22) -/
  phase : Phase
  /-- `dec_state`, `rx_buf`, `rx_len` (R20, R21) -/
  dec : Decoder
  /-- `cmd`, absent outside `EXEC` (R23, R34) -/
  cmd : Option (List Byte)
  /-- `exec`, absent outside `EXEC` (R24, R34) -/
  exec : Option Progress
  /-- `tx_q` (R25) -/
  txQ : List Byte
  /-- the outstanding flash request (R37, R42) -/
  flashReq : Option FlashReq
  /-- the flash driver (R33) -/
  flash : Flash
  /-- the bytes the byte source holds, in order; it never drops one (R18) -/
  rx : List Byte
  /-- the environment's next choices; an empty list lets the agent that can move do so (weak fairness, R150) -/
  sched : List Turn
  /-- the events so far, oldest first (R36) -/
  trace : List Event
deriving DecidableEq, Repr

/-- Why a step stops with a fault. Each is a model fault of 93_implementation_defined.md (U20, U21) or of R38, and no state
that a run reaches from reset raises one, so each is safe: the machine stops where it never is. -/
inductive Fault where
  /-- raised by the receive step at the unused encoding of `dec_state` (R21, U20); safe -/
  | unusedDecState
  /-- raised by the step at the unused encoding of `phase` (R22, U20); safe -/
  | unusedPhase
  /-- raised in `EXEC` when `cmd` holds no value (R34, U21); safe -/
  | cmdAbsent
  /-- raised in `EXEC` when `exec` holds no value (R34, U21); safe -/
  | execAbsent
  /-- raised by the flash driver for an address the chip does not have, or an erase that starts at no sector (R38, R43); safe -/
  | illegalFlashRequest
deriving DecidableEq, Repr

/-- Why a step is refused. -/
inductive Refusal where
  /-- an instruction with no meaning yet: raised by no arm of this model; safe -/
  | notModelled (mnemonic : String)
  /-- raised by the step when the `cfg` inputs break a constraint of R26: the model takes no step (R27, U8); safe -/
  | illegalConfig
deriving DecidableEq, Repr

/-- The reset state (R37) under given `cfg` inputs and a given flash array: the flash survives a reset and is the driver's. -/
def State.resetWith (cfg : Cfg) (array : FlashArray) : State where
  cfg := cfg
  phase := .recv
  dec := ⟨.idle, []⟩
  cmd := none
  exec := none
  txQ := []
  flashReq := none
  flash := ⟨array, false, 0⟩
  rx := []
  sched := []
  trace := []

/-- The machine right after reset (R37): the configuration of the spec's vectors (assumption log 1), a driver of which nothing
is known (assumption log 4), no byte offered, no choice of the environment made yet. -/
def State.reset : State :=
  State.resetWith Cfg.vectors (.drawn [])

end Sys2Proof.Machine
end

