-- ==== Sys2Proof/Machine/Ops.lean ====
section
/-! DEFINITION. The shared operations: a handler and the steps of phase `EXEC` (43_dispatcher.md R107), the fixed error reply,
which is what this block has in the place of an exception (60_exceptions.md R133, R134), and the event `Reset` (R141). -/

namespace Sys2Proof.Machine

/-- A handler (R107, R109): the list `ops` of its flash transactions and its `Finish`, the status and the success body, which
alone reads the bytes returned (R115). -/
structure Handler where
  replyOp : Byte
  ops : List FlashReq
  status : StatusCode
  body : List Byte → List Byte

/-- `Fixed(s)` (R109): no flash transaction, the status and no body. Taking a logical error is this and nothing else: no state
is saved, no mode changes and nothing is restored afterwards (R133, R134). -/
def Handler.fixed (replyOp : Byte) (status : StatusCode) : Handler where
  replyOp := replyOp
  ops := []
  status := status
  body := fun _ => []

/-- A handler behind its validator check: the transactions only when the check passes (R103, R125). -/
def Handler.guarded (check : StatusCode) (h : Handler) : Handler :=
  match check with
  | .none => h
  | st => Handler.fixed h.replyOp st

/-- The start of a handler (R106): no transaction issued, no byte returned. -/
def Progress.start : Progress := ⟨0, []⟩

/-- Issuing a flash request (R107): one step of the block. -/
def issue (q : FlashReq) (p : Progress) (s : State) : State :=
  { s with
    flashReq := some q
    exec := some { p with issued := p.issued + 1 }
    trace := s.trace ++ [.flashReq q] }

/-- The flash driver's response to the outstanding request (R107, R42): one step of the flash agent. -/
def respond (q : FlashReq) (p : Progress) (s : State) : State :=
  { s with
    flash := s.flash.after s.cfg q
    flashReq := none
    exec := some { p with reads := p.reads ++ (s.flash.answer s.cfg q).toList }
    trace := s.trace ++ [.flashResp (s.flash.answer s.cfg q)] }

/-- The reply packet of a handler that has all its bytes (R107). -/
def Handler.reply (h : Handler) (reads : List Byte) : List Byte :=
  buildReply h.replyOp h.status (h.body reads)

/-- The final step of a handler (R107): the encoded reply goes to `tx_q`, and `cmd` and `exec` hold no value any more (R34). -/
def finish (h : Handler) (p : Progress) (s : State) : State :=
  { s with
    txQ := frameEncode s.cfg (h.reply p.reads)
    phase := .send
    cmd := none
    exec := none }

/-- One step of phase `EXEC` under a handler (R107): while a request is outstanding the flash driver moves; else the block
issues the next transaction, or takes the final step when none is left. -/
def runHandler (h : Handler) (s : State) : Host.Outcome State Fault Refusal :=
  match s.exec with
  | none => .fault .execAbsent
  | some p =>
    match s.flashReq with
    | some q => if q.legal s.cfg then .next (respond q p s) else .fault .illegalFlashRequest
    | none =>
      match h.ops[p.issued]? with
      | some q => .next (issue q p s)
      | none => .next (finish h p s)

/-- The flash driver when a `Reset` arrives: a request outstanding is cut short; software-ID mode is left (R141, R142). -/
def flashAtReset (s : State) : Flash :=
  match s.flashReq with
  | some q => s.flash.interrupt s.cfg q
  | none => { s.flash with idMode := false }

/-- The environment event `Reset` (R141): every field of the block as in R37, the command in progress abandoned with no reply.
The transactions performed stay performed, and what the environment holds stays. -/
def resetEvent (s : State) : State :=
  { s with
    phase := .recv
    dec := Decoder.fresh
    cmd := none
    exec := none
    txQ := []
    flashReq := none
    flash := flashAtReset s }

end Sys2Proof.Machine
end

