-- ==== Sys2Proof/Machine/Validator.lean ====
section
/-! DEFINITION. The address-range validator (42_validator.md): pure checks in exact arithmetic on naturals, so that no sum of
an address and a length wraps (R97). -/

namespace Sys2Proof.Machine

/-- `RangeOK(s, e) = (s < e) and (e <= ROM_SIZE)` for the half-open range `[s, e)` (R98). -/
abbrev rangeOK (cfg : Cfg) (s e : Nat) : Prop :=
  s < e ∧ e ≤ cfg.romSize.toNat

/-- `ReadCheck(addr, len)` (R99): the length first, then the range; `len = 0` is an empty range. -/
def readCheck (cfg : Cfg) (addr len : Nat) : StatusCode :=
  if cfg.mtl.toNat < len then .badLength
  else if rangeOK cfg addr (addr + len) then .none
  else .badAddress

/-- `WriteCheck(addr, n)` (R100). -/
def writeCheck (cfg : Cfg) (addr n : Nat) : StatusCode :=
  if cfg.mtl.toNat < n then .badLength
  else if rangeOK cfg addr (addr + n) then .none
  else .badAddress

/-- `CrcCheck(s, e)` (R101): no alignment and no length cap. -/
def crcCheck (cfg : Cfg) (s e : Nat) : StatusCode :=
  if rangeOK cfg s e then .none else .badAddress

/-- `EraseCheck(s, e)` (R102): in range and both ends sector-aligned, never rounded. -/
def eraseCheck (cfg : Cfg) (s e : Nat) : StatusCode :=
  if rangeOK cfg s e ∧ s % cfg.sectorSize.toNat = 0 ∧ e % cfg.sectorSize.toNat = 0 then .none
  else .badAddress

end Sys2Proof.Machine
end

