-- ==== Sys2Proof/Machine/Data.lean ====
section
/-! DEFINITION. The meanings of the commands that move or fold flash bytes: `Read` (44_commands.md R119), `Write` (R120) and
`Crc` (R121). -/

namespace Sys2Proof.Machine

/-- The byte reads of the range that starts at `start` and has `n` bytes, ascending (R119, R121). -/
def readOps (start n : Nat) : List FlashReq :=
  (List.range n).map fun i => .readByte (start + i)

/-- The byte programs of `data` from `addr` upward, ascending (R120). -/
def writeOps (addr : Nat) (data : List Byte) : List FlashReq :=
  data.mapIdx fun i v => .writeByte (addr + i) v

/-- `Read` (R119). -/
def readHandler (cfg : Cfg) (addr : Addr) (len : Byte) : Handler :=
  Handler.guarded (readCheck cfg addr.toNat len.toNat)
    { replyOp := opRead
      ops := readOps addr.toNat len.toNat
      status := .none
      body := fun reads => reads.take len.toNat }

/-- `Write` (R120): a command with no data byte is `BadCommand`, before the validator's checks. -/
def writeHandler (cfg : Cfg) (addr : Addr) (data : List Byte) : Handler :=
  Handler.guarded (if data = [] then .badCommand else writeCheck cfg addr.toNat data.length)
    { replyOp := opWrite
      ops := writeOps addr.toNat data
      status := .none
      body := fun _ => [] }

/-- `Crc` (R121). -/
def crcHandler (cfg : Cfg) (start stop : Addr) : Handler :=
  Handler.guarded (crcCheck cfg start.toNat stop.toNat)
    { replyOp := opCrc
      ops := readOps start.toNat (stop.toNat - start.toNat)
      status := .none
      body := fun reads => le16 (crc16 (reads.take (stop.toNat - start.toNat))) }

/-- The meaning of `READ addr, len` (R119). -/
def execRead (addr : Addr) (len : Byte) (s : State) : Host.Outcome State Fault Refusal :=
  runHandler (readHandler s.cfg addr len) s

/-- The meaning of `WRITE addr, data` (R120). -/
def execWrite (addr : Addr) (data : List Byte) (s : State) : Host.Outcome State Fault Refusal :=
  runHandler (writeHandler s.cfg addr data) s

/-- The meaning of `CRC start, end` (R121). -/
def execCrc (start stop : Addr) (s : State) : Host.Outcome State Fault Refusal :=
  runHandler (crcHandler s.cfg start stop) s

end Sys2Proof.Machine
end

