-- ==== Sys2Proof/Machine/Erase.lean ====
section
/-! DEFINITION. The meanings of the erasing commands: `EraseSector` (44_commands.md R123) and `EraseChip` (R124). -/

namespace Sys2Proof.Machine

/-- The sector erases of `[start, stop)`, ascending by `SECTOR_SIZE`: `(stop - start) / SECTOR_SIZE` of them (R123). -/
def eraseOps (cfg : Cfg) (start stop : Nat) : List FlashReq :=
  (List.range ((stop - start) / cfg.sectorSize.toNat)).map fun i =>
    .eraseSector (start + i * cfg.sectorSize.toNat)

/-- `EraseSector` (R123). -/
def eraseHandler (cfg : Cfg) (start stop : Addr) : Handler :=
  Handler.guarded (eraseCheck cfg start.toNat stop.toNat)
    { replyOp := opErase
      ops := eraseOps cfg start.toNat stop.toNat
      status := .none
      body := fun _ => [] }

/-- `EraseChip` (R124): unconditional. -/
def eraseChipHandler : Handler where
  replyOp := opEraseChip
  ops := [.bare .eraseChip]
  status := .none
  body := fun _ => []

/-- The meaning of `ERASE start, end` (R123). -/
def execErase (start stop : Addr) (s : State) : Host.Outcome State Fault Refusal :=
  runHandler (eraseHandler s.cfg start stop) s

/-- The meaning of `ERASECHIP` (R124). -/
def execEraseChip (s : State) : Host.Outcome State Fault Refusal :=
  runHandler eraseChipHandler s

end Sys2Proof.Machine
end

