-- ==== Sys2Proof/Machine/Query.lean ====
section
/-! DEFINITION. The meanings of the commands that ask the block or the chip who they are: `Ping` (44_commands.md R117) and
`Identify` (R118). -/

namespace Sys2Proof.Machine

/-- `Ping` (R117): firmware version and geometry, no flash transaction. -/
def pingHandler (cfg : Cfg) : Handler where
  replyOp := opPing
  ops := []
  status := .none
  body := fun _ => [cfg.fwMajor, cfg.fwMinor] ++ le32 cfg.romSize ++ [cfg.mtl]

/-- `Identify` (R118): ID mode is entered, the two ID bytes read, and ID mode left. -/
def identifyHandler : Handler where
  replyOp := opIdentify
  ops := [.bare .enterId, .bare .readMfrId, .bare .readDevId, .bare .leaveId]
  status := .none
  body := fun reads => reads.take 2

/-- The meaning of `PING` (R117). -/
def execPing (s : State) : Host.Outcome State Fault Refusal :=
  runHandler (pingHandler s.cfg) s

/-- The meaning of `IDENTIFY` (R118). -/
def execIdentify (s : State) : Host.Outcome State Fault Refusal :=
  runHandler identifyHandler s

end Sys2Proof.Machine
end

