-- ==== Sys2Proof/Machine/Dispatch.lean ====
section
/-! DEFINITION. The routing of a command to its handler (43_dispatcher.md R111), one arm per constructor. -/

namespace Sys2Proof.Machine

/-- One step of phase `EXEC` of command `i` (R107). -/
def exec (i : Instr) (s : State) : Host.Outcome State Fault Refusal :=
  match i with
  | .ping => Sys2Proof.Machine.execPing s
  | .identify => Sys2Proof.Machine.execIdentify s
  | .read addr len => Sys2Proof.Machine.execRead addr len s
  | .write addr data => Sys2Proof.Machine.execWrite addr data s
  | .crc start stop => Sys2Proof.Machine.execCrc start stop s
  | .erase start stop => Sys2Proof.Machine.execErase start stop s
  | .erasechip => Sys2Proof.Machine.execEraseChip s

end Sys2Proof.Machine
end

