-- ==== Sys2Proof/Machine/Phases.lean ====
section
/-! DEFINITION. The three phases of the dispatcher (43_dispatcher.md R106 to R108), the signals of the ports (10_state.md R18,
R19), and one turn of the machine: which agent moves and what it does. -/

namespace Sys2Proof.Machine

/-- `rx_valid`: the byte source offers a byte (R18). -/
def State.rxValid (s : State) : Bool := !s.rx.isEmpty
/-- `rx_data`: the byte offered, if any (R18). -/
def State.rxData (s : State) : Option Byte := s.rx.head?
/-- `rx_ready`: true exactly in `RECV` (R18). -/
def State.rxReady (s : State) : Bool := decide (s.phase = .recv)
/-- `tx_valid`: true exactly in `SEND` with bytes left (R19). -/
def State.txValid (s : State) : Bool := decide (s.phase = .send) && !s.txQ.isEmpty
/-- `tx_data`: `tx_q[0]` while `tx_valid` (R19). -/
def State.txData (s : State) : Option Byte := if s.txValid then s.txQ.head? else none

/-- The decoder's answer to a byte `b` put into the state (R106): the byte and a framing error go to the trace, and a completed
frame starts phase `EXEC`. -/
def received (b : Byte) (o : DecOut) (s : State) : State :=
  let s1 := { s with dec := o.dec, trace := s.trace ++ (.rxByte b :: (o.err.map .framingError).toList) }
  match o.emit with
  | none => s1
  | some f => { s1 with cmd := some f, exec := some Progress.start, phase := .exec }

/-- Phase `RECV` (R106): one byte taken and fed to the decoder. With no byte offered the block waits (R116, U23). -/
def recvStep (s : State) : Host.Outcome State Fault Refusal :=
  match s.rx with
  | [] => .next s
  | b :: rest =>
    match decStep s.cfg s.dec b with
    | none => .fault .unusedDecState
    | some o => .next (received b o { s with rx := rest })

/-- Phase `EXEC` (R107, R109): the command in `cmd` runs its handler; a frame that carries no command is answered
`BadCommand` with the opcode byte it came with (R110 to R112). -/
def execStep (s : State) : Host.Outcome State Fault Refusal :=
  match s.cmd with
  | none => .fault .cmdAbsent
  | some f =>
    match decodeCommand f with
    | .ok i => exec i s
    | .error _ => runHandler (Handler.fixed (replyOp f) .badCommand) s

/-- Phase `SEND` (R108): one byte of the reply goes out. With nothing to send `tx_valid` is false and nothing happens (R19). -/
def sendStep (s : State) : Host.Outcome State Fault Refusal :=
  match s.txQ with
  | [] => .next s
  | b :: rest =>
    .next { s with
      txQ := rest
      phase := if rest = [] then .recv else .send
      trace := s.trace ++ [.txByte b] }

/-- The step of the agent that can move, by phase (R22, R106 to R108). -/
def phaseStep (s : State) : Host.Outcome State Fault Refusal :=
  match s.phase with
  | .recv => recvStep s
  | .exec => execStep s
  | .send => sendStep s
  | .unused => .fault .unusedPhase

/-- One turn: the environment's next choice, then the step it lets happen. A configuration outside R26 is refused (R27). -/
def turn (s : State) : Host.Outcome State Fault Refusal :=
  if s.cfg.legal then
    match s.sched with
    | [] => phaseStep s
    | .go :: rest => phaseStep { s with sched := rest }
    | .stall :: rest => .next { s with sched := rest }
    | .reset :: rest => .next (resetEvent { s with sched := rest })
  else .refused .illegalConfig

/-- The state in which a decoded frame has just been handed to the dispatcher (R106) and nothing delays its first step. -/
def atHandover (f : List Byte) (s : State) : State :=
  { s with
    phase := .exec
    cmd := some f
    exec := some Progress.start
    flashReq := none
    sched := [] }

/-- The handler of a command (R109, R111), the one its meaning runs. -/
def handlerOf (cfg : Cfg) : Instr → Handler
  | .ping => pingHandler cfg
  | .identify => identifyHandler
  | .read addr len => readHandler cfg addr len
  | .write addr data => writeHandler cfg addr data
  | .crc start stop => crcHandler cfg start stop
  | .erase start stop => eraseHandler cfg start stop
  | .erasechip => eraseChipHandler

/-- `Dispatch(cmd)` (R109): the handler of a completed frame. -/
def dispatch (cfg : Cfg) (f : List Byte) : Handler :=
  match decodeCommand f with
  | .ok i => handlerOf cfg i
  | .error _ => Handler.fixed (replyOp f) .badCommand

/-- R24's `ops_left`: the transactions of the command in `cmd` still to be issued. -/
def State.opsLeft (s : State) : Option (List FlashReq) :=
  match s.cmd, s.exec with
  | some f, some p => some ((dispatch s.cfg f).ops.drop p.issued)
  | _, _ => none

end Sys2Proof.Machine
end

