-- ==== Sys2Proof/Machine/Step.lean ====
section
/-! DEFINITION. The step function, and how a command is placed where the next step runs it. -/

namespace Sys2Proof.Machine

/-- One step of the machine (00_scope.md R2): one byte in, one byte out, one half of a flash transaction, or a handler's final
step. -/
def step (s : State) : Host.Outcome State Fault Refusal :=
  turn s

/-- `s` with the packet of a word of the opcode table handed to the dispatcher (R106). Assumption log 9. -/
def State.withFetchWord (s : State) (nbits w : Nat) : State :=
  atHandover (tablePacket nbits w) s

end Sys2Proof.Machine
end

