-- ==== Sys2Proof/Machine/HostSide.lean ====
section
/-! DEFINITION. The host's half of the packet model, which 00_scope.md R4 (e) keeps in scope: the reply decoder (41_packet.md R93),
the fields of a reply (R94), the outcome of a call (R95), and the expansion of the CLI's commands (30_encoding.md R73). The
host's command builders (R89) are `encode`. Its blocking, timeout and retry policy is out of scope (R4 (e)). -/

namespace Sys2Proof.Machine

/-- Why a host takes a reply as malformed (R93). -/
inductive Malformed where
  | length
  | opcode
  | status
deriving DecidableEq, Repr

/-- `Ok(body)`, `Failed(status)` or `Malformed(reason)` (R93). -/
inductive ReplyResult where
  | ok (body : List Byte)
  | failed (status : StatusCode)
  | malformed (reason : Malformed)
deriving DecidableEq, Repr

/-- `SuccessBodyLen(op, req_len)` (R93), for the seven opcodes it lists. -/
def successBodyLen (op : Byte) (reqLen : Nat) : Option Nat :=
  if op = opPing then some 7
  else if op = opIdentify then some 2
  else if op = opRead then some reqLen
  else if op = opWrite then some 0
  else if op = opCrc then some 2
  else if op = opErase then some 0
  else if op = opEraseChip then some 0
  else none

/-- The part of `DecodeReply` after the length check: opcode, status byte and body in hand (R93). -/
def decodeReplyFields (op : Byte) (reqLen : Nat) (replied status : Byte) (body : List Byte) : ReplyResult :=
  if replied ≠ op then .malformed .opcode
  else
    match StatusCode.ofCode status with
    | none => .malformed .status
    | some .none => if some body.length = successBodyLen op reqLen then .ok body else .malformed .length
    | some st => if body = [] then .failed st else .malformed .length

/-- `DecodeReply(op, req_len, f)` (R93). -/
def decodeReply (op : Byte) (reqLen : Nat) : List Byte → ReplyResult
  | replied :: l0 :: l1 :: status :: body =>
    if rdLE16 l0 l1 = body.length + 4 then decodeReplyFields op reqLen replied status body
    else .malformed .length
  | _ => .malformed .length

/-- The fields of a successful reply (R94). -/
inductive ReplyFields where
  | ping (fwMajor fwMinor : Byte) (romSize : Addr) (mtl : Byte)
  | identify (manufacturerId deviceId : Byte)
  | read (data : List Byte)
  | crc (crc : Half)
  | empty
deriving DecidableEq, Repr

/-- `Ping`'s seven body bytes (R94). -/
def pingFields : List Byte → Option ReplyFields
  | [ma, mi, r0, r1, r2, r3, mtl] => some (.ping ma mi (rdLE32 r0 r1 r2 r3) mtl)
  | _ => none

/-- `Identify`'s two body bytes (R94). -/
def identifyFields : List Byte → Option ReplyFields
  | [m, d] => some (.identify m d)
  | _ => none

/-- `Crc`'s two body bytes (R94). -/
def crcFields : List Byte → Option ReplyFields
  | [c0, c1] => some (.crc (BitVec.ofNat 16 (rdLE16 c0 c1)))
  | _ => none

/-- Field extraction from `Ok(body)` (R94). -/
def replyFields (op : Byte) (body : List Byte) : Option ReplyFields :=
  if op = opPing then pingFields body
  else if op = opIdentify then identifyFields body
  else if op = opRead then some (.read body)
  else if op = opCrc then crcFields body
  else if op = opWrite ∨ op = opErase ∨ op = opEraseChip then some .empty
  else none

/-- The outcome of one call at the host (R95). -/
inductive CallOutcome where
  | ok (fields : ReplyFields)
  | failed (status : StatusCode)
  | malformed (reason : Malformed)
  /-- `TransportTimeout`: local to the host's transport, never seen by the block (R130) -/
  | transportTimeout
deriving DecidableEq, Repr

/-- The outcome of a call whose reply is `reply`, or whose transport timed out (R95). -/
def callOutcome (op : Byte) (reqLen : Nat) (reply : Option (List Byte)) : CallOutcome :=
  match reply with
  | none => .transportTimeout
  | some f =>
    match decodeReply op reqLen f with
    | .malformed r => .malformed r
    | .failed st => .failed st
    | .ok body =>
      match replyFields op body with
      | some fields => .ok fields
      | none => .malformed .length

/-- The CLI's commands (R72, R73), with a file as its bytes. -/
inductive CliCommand where
  | ping
  | id
  | read (start stop : Nat)
  | write (start : Nat) (file : List Byte)
  | verify (start : Nat) (file : List Byte)
  | crc (start stop : Nat)
  | erase (start stop : Nat)
  | eraseChip
deriving DecidableEq, Repr

/-- How many chunks of at most `mtl` bytes cover `n` bytes (R73). -/
def chunkCount (mtl n : Nat) : Nat :=
  (n + mtl - 1) / mtl

/-- `read s e` (R73): `READ a, min(MTL, e - a)` for `a = s, s+MTL, ...` while `a < e`. -/
def expandRead (cfg : Cfg) (start stop : Nat) : List Instr :=
  (List.range (chunkCount cfg.mtl.toNat (stop - start))).map fun i =>
    let a := start + i * cfg.mtl.toNat
    .read (BitVec.ofNat 32 a) (BitVec.ofNat 8 (min cfg.mtl.toNat (stop - a)))

/-- `write s f` (R73): `WRITE s+i, f[i .. i+min(MTL, m-i))` for `i = 0, MTL, ...` while `i < m`. -/
def expandWrite (cfg : Cfg) (start : Nat) (file : List Byte) : List Instr :=
  (List.range (chunkCount cfg.mtl.toNat file.length)).map fun i =>
    let offset := i * cfg.mtl.toNat
    .write (BitVec.ofNat 32 (start + offset)) ((file.drop offset).take cfg.mtl.toNat)

/-- The expansion of a CLI command into commands of the block (R73). That a multi-chunk operation stops at the first reply
that is not `None` is the host's duty (R146). -/
def expandCli (cfg : Cfg) : CliCommand → List Instr
  | .ping => [.ping]
  | .id => [.identify]
  | .read start stop => expandRead cfg start stop
  | .write start file => expandWrite cfg start file
  | .verify start file => expandRead cfg start (start + file.length)
  | .crc start stop => [.crc (BitVec.ofNat 32 start) (BitVec.ofNat 32 stop)]
  | .erase start stop => [.erase (BitVec.ofNat 32 start) (BitVec.ofNat 32 stop)]
  | .eraseChip => [.erasechip]

/-- The byte a host is advised to send before its first frame (70_reset_and_hazards.md R143). -/
def hostPreamble (cfg : Cfg) : List Byte := [cfg.marker]

end Sys2Proof.Machine
end

