-- ==== Sys2Proof/Safety.lean ====
section
/-! DEFINITION. What a good state and a good run are, in the terms claims use: the invariants of 10_state.md R35, what a handler's
transactions do to the flash when all are performed, and a run of a command sequence (70_reset_and_hazards.md R151). -/

namespace Sys2Proof.Machine

/-- R35 (a) to (e). The reply frame of (d) is one the block builds: it has at most `MAX_REPLY` bytes (R90). -/
structure WellShaped (s : State) : Prop where
  /-- (a) `rx_len <= MAX_PACKET` -/
  bufferBounded : s.dec.rxLen ≤ s.cfg.maxPacket
  /-- (b) `dec_state = Idle` implies `rx_len = 0` -/
  idleEmpty : s.dec.st = .idle → s.dec.rxLen = 0
  /-- (c) outside `RECV` the decoder is in `Idle` with an empty buffer -/
  decoderQuiet : s.phase ≠ .recv → s.dec.st = .idle ∧ s.dec.rxLen = 0
  /-- (d) in `SEND`, `tx_q` is a suffix of one encoded reply frame -/
  replySuffix : s.phase = .send → ∃ op st body,
    s.txQ <:+ frameEncode s.cfg (buildReply op st body) ∧ (buildReply op st body).length ≤ s.cfg.maxReply
  /-- (e) in `RECV`, `tx_q` is empty -/
  recvEmpty : s.phase = .recv → s.txQ = []

/-- No state that holds no value is read (R34): the 2-bit encodings are used ones, `cmd` and `exec` are held in `EXEC` and only
there, a flash request is outstanding in `EXEC` only, and `tx_q` holds a byte in `SEND`. -/
structure Held (s : State) : Prop where
  decoderUsed : s.dec.st ≠ .unused
  phaseUsed : s.phase ≠ .unused
  cmdHeld : s.cmd.isSome = decide (s.phase = .exec)
  execHeld : s.exec.isSome = decide (s.phase = .exec)
  requestHeld : s.flashReq.isSome = true → s.phase = .exec
  replyHeld : s.phase = .send → s.txQ ≠ []

/-- The software-ID mode after a list of transactions, begun outside it (R32 (2)). -/
def idModeAfterAll (ops : List FlashReq) : Bool :=
  ops.foldl (fun mode q => idModeAfter q.op mode) false

/-- How many of a handler's transactions were performed: all issued, less the outstanding one. -/
def performedCount (p : Progress) (outstanding : Option FlashReq) : Nat :=
  p.issued - outstanding.toList.length

/-- The handler's progress fits its transaction list (R24, R107): what was issued is a leading part of the list, the outstanding
request is its last, every read-type transaction performed has returned one byte, and the driver's ID mode is what those
performed made it. -/
structure OnTrack (s : State) (h : Handler) (p : Progress) : Prop where
  issuedBounded : p.issued ≤ h.ops.length
  outstandingIsLast : ∀ q, s.flashReq = some q → 1 ≤ p.issued ∧ h.ops[p.issued - 1]? = some q
  readsCounted :
    p.reads.length = (h.ops.take (performedCount p s.flashReq)).countP fun q => q.op.isRead
  idModeTracked : s.flash.idMode = idModeAfterAll (h.ops.take (performedCount p s.flashReq))

/-- Every flash request in a trace stays inside the chip (R43). -/
def requestsInChip (cfg : Cfg) (trace : List Event) : Prop :=
  ∀ q, Event.flashReq q ∈ trace → q.legal cfg = true

/-- The safety invariant: a legal configuration (R26), no absent state read (R34), every handler on its track (R107), the
driver outside ID mode between commands (R118), and every request so far inside the chip (R43). -/
structure Safe (s : State) : Prop where
  configLegal : s.cfg.legal = true
  held : Held s
  onTrack : ∀ f p, s.cmd = some f → s.exec = some p → OnTrack s (dispatch s.cfg f) p
  idModeLeft : s.phase ≠ .exec → s.flash.idMode = false
  inChip : requestsInChip s.cfg s.trace

/-- The block waits for a first byte: `RECV`, `Idle`, nothing held (the end of a run, R151). -/
structure Quiescent (s : State) : Prop where
  phase : s.phase = .recv
  decoder : s.dec = Decoder.fresh
  cmd : s.cmd = none
  exec : s.exec = none
  reply : s.txQ = []
  request : s.flashReq = none

/-- A frame has just been handed to the dispatcher (R106), and the environment lets every agent move. -/
structure AtEntry (f : List Byte) (s : State) : Prop where
  configLegal : s.cfg.legal = true
  phase : s.phase = .exec
  cmd : s.cmd = some f
  exec : s.exec = some Progress.start
  request : s.flashReq = none
  schedule : s.sched = []

/-- The driver after all of a list of transactions, in list order (R51). -/
def flashAfterAll (cfg : Cfg) : List FlashReq → Flash → Flash
  | [], f => f
  | q :: ops, f => flashAfterAll cfg ops (f.after cfg q)

/-- The bytes the read-type transactions of a list return, in list order (R107). -/
def answersOf (cfg : Cfg) : List FlashReq → Flash → List Byte
  | [], _ => []
  | q :: ops, f => (f.answer cfg q).toList ++ answersOf cfg ops (f.after cfg q)

/-- The events of a list of transactions: each request is followed by its response before the next is issued (R51). -/
def flashEventsOf (cfg : Cfg) : List FlashReq → Flash → List Event
  | [], _ => []
  | q :: ops, f =>
    .flashReq q :: .flashResp (f.answer cfg q) :: flashEventsOf cfg ops (f.after cfg q)

/-- The reply packet of a completed frame when its transactions meet the driver `f` (R107). -/
def replyPacket (cfg : Cfg) (cmd : List Byte) (f : Flash) : List Byte :=
  (dispatch cfg cmd).reply (answersOf cfg (dispatch cfg cmd).ops f)

/-- The state at the end of phase `EXEC`: every transaction performed, the encoded reply in `tx_q` (R107). -/
def afterExec (cmd : List Byte) (s : State) : State :=
  { s with
    phase := .send
    cmd := none
    exec := none
    flash := flashAfterAll s.cfg (dispatch s.cfg cmd).ops s.flash
    txQ := frameEncode s.cfg (replyPacket s.cfg cmd s.flash)
    trace := s.trace ++ flashEventsOf s.cfg (dispatch s.cfg cmd).ops s.flash }

/-- `k` steps of the machine, stopping at the first fault or refusal: `Host.Core.run` of this machine. -/
def runSteps : Nat → State → Host.Outcome State Fault Refusal
  | 0, s => .next s
  | k + 1, s =>
    match step s with
    | .next t => runSteps k t
    | .fault r => .fault r
    | .refused r => .refused r

/-- `t` is reached from `s` by steps that each answer a next state. -/
def Reaches (s t : State) : Prop :=
  ∃ k, runSteps k s = .next t

/-- The byte source is given more bytes to offer (R18). -/
def State.offer (s : State) (bytes : List Byte) : State :=
  { s with rx := s.rx ++ bytes }

/-- The byte an event puts on `tx` (R19). -/
def Event.sentByte : Event → Option Byte
  | .rxByte _ => none
  | .txByte b => some b
  | .flashReq _ => none
  | .flashResp _ => none
  | .framingError _ => none

/-- The bytes sent on `tx` in a trace, in order (R36). -/
def sentBytes (trace : List Event) : List Byte :=
  trace.filterMap Event.sentByte

/-- One command of a run (R151), from `s` to `t`: the host sends the frame of `c` when nothing it sent before is left, the block
takes all of it, sends exactly one whole reply frame and is back in `RECV` and `Idle`, and no `Reset` arrives on the way. The
turns of the schedule that the command used are those `t` has no more. R151 does not say in which state a run begins: that it
begins at a quiescent block with no byte held is the model's choice (DESIGN CHOICE, assumption log 18). -/
structure CommandAnswered (s : State) (c : List Byte) (t : State) : Prop where
  before : Quiescent s
  nothingHeld : s.rx = []
  reached : Reaches (s.offer (frameEncode s.cfg c)) t
  unbroken : ∃ turns, s.sched = turns ++ t.sched ∧ Turn.reset ∉ turns
  taken : t.rx = []
  replied : ∃ op st body, sentBytes t.trace = sentBytes s.trace ++ frameEncode s.cfg (buildReply op st body)
  settled : Quiescent t

/-- A complete run of a command sequence (R151): each frame is sent only after the reply before it is complete (R144). The state it
begins in is the model's choice (assumption log 18). -/
inductive CommandRun : State → List (List Byte) → State → Prop where
  | done (s : State) (quiet : Quiescent s) : CommandRun s [] s
  | command (s t u : State) (c : List Byte) (cs : List (List Byte)) (answered : CommandAnswered s c t)
      (rest : CommandRun t cs u) : CommandRun s (c :: cs) u

/-- The driver after the transactions of a command sequence (R151, R107). -/
def flashAfterCommands (cfg : Cfg) : List (List Byte) → Flash → Flash
  | [], f => f
  | c :: cs, f => flashAfterCommands cfg cs (flashAfterAll cfg (dispatch cfg c).ops f)

/-- The reply packets of a command sequence, in order (R151, R114). -/
def repliesOf (cfg : Cfg) : List (List Byte) → Flash → List (List Byte)
  | [], _ => []
  | c :: cs, f => replyPacket cfg c f :: repliesOf cfg cs (flashAfterAll cfg (dispatch cfg c).ops f)

end Sys2Proof.Machine
end

