-- ==== Sys2Proof/Certificates/Slice0/Obligations.lean ====
section
/-! DEFINITION. The statements for the provers. Each docstring names the rule of spec/ it rests on. -/

open Sys2Proof Sys2Proof.Machine

/-! ### Encoding -/

/-- Decoding the packet of a well-formed command gives the command back, with every operand at every value (R62, R64, R66). -/
def Obligations.DecodeOfEncodeIsIdentity : Prop :=
  ∀ i : Instr, i.wf → decodeCommand (encode i) = .ok i

/-- A packet that decodes is the packet of the command it decodes to, and that command is well-formed: each command has one
packet. -/
def Obligations.EncodeOfDecodeIsIdentity : Prop :=
  ∀ (f : List Byte) (i : Instr), decodeCommand f = .ok i → encode i = f ∧ i.wf

/-- Packets written out from R66's table decode to the commands they stand for. -/
def Obligations.WrittenOutPacketsDecode : Prop :=
  decodeCommand [0x00, 0x03, 0x00] = .ok .ping ∧
  decodeCommand [0x01, 0x03, 0x00] = .ok .identify ∧
  decodeCommand [0x02, 0x08, 0x00, 0xF8, 0x7F, 0x00, 0x00, 0x40] = .ok (.read 0x00007FF8 0x40) ∧
  decodeCommand [0x03, 0x09, 0x00, 0xFF, 0x7F, 0x00, 0x00, 0x12, 0x34] = .ok (.write 0x00007FFF [0x12, 0x34]) ∧
  decodeCommand [0x04, 0x0B, 0x00, 0x64, 0x00, 0x00, 0x00, 0x6E, 0x00, 0x00, 0x00] = .ok (.crc 100 110) ∧
  decodeCommand [0x05, 0x0B, 0x00, 0x00, 0x10, 0x00, 0x00, 0x00, 0x40, 0x00, 0x00] = .ok (.erase 4096 16384) ∧
  decodeCommand [0x06, 0x03, 0x00] = .ok .erasechip

/-- The frames that carry no command are exactly those R131's items 1 to 4 list: the empty frame, a frame shorter than the
header or whose `total_length` is not its length, an unknown opcode, a payload length that does not fit the opcode. -/
def Obligations.FramesThatCarryNoCommand : Prop :=
  ∀ f : List Byte, (∃ e, decodeCommand f = .error e) ↔
    f.length < 3 ∨
    ∃ op l0 l1 pl, f = op :: l0 :: l1 :: pl ∧
      (l0.toNat + 256 * l1.toNat ≠ f.length ∨
       7 ≤ op.toNat ∨
       ((op = 0x00 ∨ op = 0x01 ∨ op = 0x06) ∧ pl.length ≠ 0) ∨
       (op = 0x02 ∧ pl.length ≠ 5) ∨
       (op = 0x03 ∧ pl.length < 5) ∨
       ((op = 0x04 ∨ op = 0x05) ∧ pl.length ≠ 8))

/-- R96: the packet of every command a conforming host builds is accepted by the decoder's bound, and so is every reply the
block builds, whatever bytes the flash returned. -/
def Obligations.PacketSizesAreBounded : Prop :=
  ∀ cfg : Cfg, cfg.legal = true →
    (∀ i : Instr, i.wf → (∀ a d, i = .write a d → d.length ≤ cfg.mtl.toNat) →
      3 ≤ (encode i).length ∧ (encode i).length ≤ cfg.maxPacket) ∧
    (∀ (f reads : List Byte), 4 ≤ ((dispatch cfg f).reply reads).length ∧
      ((dispatch cfg f).reply reads).length ≤ cfg.maxReply ∧ cfg.maxReply ≤ cfg.maxPacket)

/-! ### Frame codec -/

/-- R75: `Idle` and `MARKER` opens a frame with a fresh buffer. -/
def Obligations.IdleMarkerOpensAFrame : Prop :=
  ∀ (cfg : Cfg) (buf : List Byte),
    decStep cfg ⟨.idle, buf⟩ cfg.marker = some ⟨⟨.inFrame, []⟩, none, none⟩

/-- R76: in `Idle` every byte other than `MARKER`, `ESCAPE` included, changes nothing and emits nothing. -/
def Obligations.IdleIgnoresOtherBytes : Prop :=
  ∀ (cfg : Cfg) (buf : List Byte) (b : Byte), b ≠ cfg.marker →
    decStep cfg ⟨.idle, buf⟩ b = some ⟨⟨.idle, buf⟩, none, none⟩

/-- R77: `InFrame` and `MARKER` emits the buffer and returns to `Idle`, unless the buffer is empty under `Ignore`. -/
def Obligations.MarkerCompletesTheFrame : Prop :=
  ∀ (cfg : Cfg) (buf : List Byte),
    decStep cfg ⟨.inFrame, buf⟩ cfg.marker =
      if buf.length = 0 ∧ cfg.emptyFrame = .ignore then some ⟨⟨.inFrame, []⟩, none, none⟩
      else some ⟨⟨.idle, []⟩, some buf, none⟩

/-- R78, R79 and R82: in `InFrame` an escape enters `Escaped` at any fill of the buffer, and a literal byte is appended, or at
a full buffer raises `Oversize` and returns to `Idle`. -/
def Obligations.InFrameBytesAccumulate : Prop :=
  ∀ (cfg : Cfg) (buf : List Byte) (b : Byte), cfg.legal = true → buf.length ≤ cfg.maxPacket →
    decStep cfg ⟨.inFrame, buf⟩ cfg.escape = some ⟨⟨.escaped, buf⟩, none, none⟩ ∧
    (b ≠ cfg.marker → b ≠ cfg.escape → buf.length < cfg.maxPacket →
      decStep cfg ⟨.inFrame, buf⟩ b = some ⟨⟨.inFrame, buf ++ [b]⟩, none, none⟩) ∧
    (b ≠ cfg.marker → b ≠ cfg.escape → buf.length = cfg.maxPacket →
      decStep cfg ⟨.inFrame, buf⟩ b = some ⟨⟨.idle, []⟩, none, some .oversize⟩)

/-- R80 and R81: in `Escaped` a marker discards the buffer, is a framing error and opens a fresh frame; any other byte is
un-transformed and appended, or at a full buffer raises `Oversize`. -/
def Obligations.EscapedBytesAreUntransformed : Prop :=
  ∀ (cfg : Cfg) (buf : List Byte) (c : Byte), buf.length ≤ cfg.maxPacket →
    decStep cfg ⟨.escaped, buf⟩ cfg.marker = some ⟨⟨.inFrame, []⟩, none, some .escapedMarker⟩ ∧
    (c ≠ cfg.marker → buf.length < cfg.maxPacket →
      decStep cfg ⟨.escaped, buf⟩ c = some ⟨⟨.inFrame, buf ++ [c ^^^ cfg.escXor]⟩, none, none⟩) ∧
    (c ≠ cfg.marker → buf.length = cfg.maxPacket →
      decStep cfg ⟨.escaped, buf⟩ c = some ⟨⟨.idle, []⟩, none, some .oversize⟩)

/-- R84 and R85 (1), (3): an encoded frame begins and ends with `MARKER`, no byte between is `MARKER`, and its length is two
more than the packet's and one more for each byte in `ESCAPE_SET`. -/
def Obligations.MarkersStandOnlyAtTheEndsOfAFrame : Prop :=
  ∀ (cfg : Cfg) (p : List Byte), cfg.legal = true →
    (∃ body, frameEncode cfg p = cfg.marker :: (body ++ [cfg.marker]) ∧ cfg.marker ∉ body) ∧
    (frameEncode cfg p).length = 2 + p.length + p.countP (fun b => cfg.inEscapeSet b)

/-- R86: from `Idle`, feeding the encoded frame of a packet of 1 to `MAX_PACKET` bytes emits exactly that packet, raises no
framing error and ends in `Idle`. -/
def Obligations.FrameRoundTrip : Prop :=
  ∀ (cfg : Cfg) (p : List Byte), cfg.legal = true → 1 ≤ p.length → p.length ≤ cfg.maxPacket →
    feed cfg ⟨.idle, []⟩ (frameEncode cfg p) = some ⟨⟨.idle, []⟩, [p], []⟩

/-- R86, the other lengths: the empty packet gives nothing and ends in `InFrame` under `Ignore`, and gives the empty frame and
ends in `Idle` under `Emit`; a packet longer than `MAX_PACKET` raises one `Oversize` and leaves the decoder in `InFrame` with an
empty buffer. -/
def Obligations.FrameRoundTripAtOtherLengths : Prop :=
  ∀ (cfg : Cfg), cfg.legal = true →
    (cfg.emptyFrame = .ignore →
      feed cfg ⟨.idle, []⟩ (frameEncode cfg []) = some ⟨⟨.inFrame, []⟩, [], []⟩) ∧
    (cfg.emptyFrame = .emit →
      feed cfg ⟨.idle, []⟩ (frameEncode cfg []) = some ⟨⟨.idle, []⟩, [[]], []⟩) ∧
    (∀ p : List Byte, cfg.maxPacket < p.length →
      feed cfg ⟨.idle, []⟩ (frameEncode cfg p) = some ⟨⟨.inFrame, []⟩, [], [.oversize]⟩)

/-- R87: from every decoder state, a `MARKER` and then an encoded frame emits exactly that frame's packet last, after at most the
frame the first `MARKER` closed, and ends in `Idle`; and from `Idle`, `MARKER, ESCAPE` and then an encoded frame emits that packet
and nothing else. From `Idle` and `Escaped` the first clause is under the policy `Ignore`: under `Emit` the second `MARKER` closes
an empty frame there, and R87 does not follow from R77 (assumption log 16). -/
def Obligations.MarkerResynchronizesTheDecoder : Prop :=
  ∀ (cfg : Cfg) (p : List Byte), cfg.legal = true → 1 ≤ p.length → p.length ≤ cfg.maxPacket →
    (∀ buf : List Byte, feed cfg ⟨.inFrame, buf⟩ (cfg.marker :: frameEncode cfg p) =
      some ⟨⟨.idle, []⟩, (if buf = [] ∧ cfg.emptyFrame = .ignore then [p] else [buf, p]), []⟩) ∧
    (cfg.emptyFrame = .ignore → ∀ buf : List Byte,
      feed cfg ⟨.idle, buf⟩ (cfg.marker :: frameEncode cfg p) = some ⟨⟨.idle, []⟩, [p], []⟩ ∧
      feed cfg ⟨.escaped, buf⟩ (cfg.marker :: frameEncode cfg p) = some ⟨⟨.idle, []⟩, [p], [.escapedMarker]⟩) ∧
    feed cfg ⟨.idle, []⟩ (cfg.marker :: cfg.escape :: frameEncode cfg p) =
      some ⟨⟨.idle, []⟩, [p], [.escapedMarker]⟩

/-! ### Address-range validator -/

/-- R99 and R100: `Read` and `Write` are checked for length first and range second, in exact arithmetic. -/
def Obligations.TransferChecksFollowTheirOrder : Prop :=
  ∀ (cfg : Cfg) (addr n : Nat),
    (readCheck cfg addr n =
      if n > cfg.mtl.toNat then .badLength
      else if 1 ≤ n ∧ addr + n ≤ cfg.romSize.toNat then .none else .badAddress) ∧
    (writeCheck cfg addr n =
      if n > cfg.mtl.toNat then .badLength
      else if 1 ≤ n ∧ addr + n ≤ cfg.romSize.toNat then .none else .badAddress)

/-- R98, R101 and R102: `Crc` passes exactly on a nonempty range inside the chip, `EraseSector` exactly when both ends are also
sector-aligned, and each fails with `BadAddress` otherwise. -/
def Obligations.RangeChecksPassExactly : Prop :=
  ∀ (cfg : Cfg) (s e : Nat),
    (crcCheck cfg s e = .none ↔ s < e ∧ e ≤ cfg.romSize.toNat) ∧
    (crcCheck cfg s e ≠ .none → crcCheck cfg s e = .badAddress) ∧
    (eraseCheck cfg s e = .none ↔
      (s < e ∧ e ≤ cfg.romSize.toNat) ∧ s % cfg.sectorSize.toNat = 0 ∧ e % cfg.sectorSize.toNat = 0) ∧
    (eraseCheck cfg s e ≠ .none → eraseCheck cfg s e = .badAddress)

/-- R43 and R105: under a legal configuration every flash request of every frame's handler stays inside the chip, and every
sector erase starts at a sector's base, whatever the frame. -/
def Obligations.EveryRequestStaysInsideTheChip : Prop :=
  ∀ (cfg : Cfg) (f : List Byte), cfg.legal = true → ∀ q ∈ (dispatch cfg f).ops,
    (q.op = .readByte ∨ q.op = .writeByte → q.addr.toNat < cfg.romSize.toNat) ∧
    (q.op = .eraseSector → q.addr.toNat < cfg.romSize.toNat ∧ q.addr.toNat % cfg.sectorSize.toNat = 0)

/-! ### The commands, one step of phase EXEC at a time -/

/-- R117: `Ping` takes its final step at once, with no flash transaction: the reply carries the firmware version, `ROM_SIZE`
and `MTL`; nothing else changes. -/
def Obligations.PingRepliesVersionAndGeometry : Prop :=
  ∀ (s : State) (p : Progress), s.exec = some p → s.flashReq = none →
    exec .ping s = .next { s with
      phase := .send, cmd := none, exec := none
      txQ := frameEncode s.cfg
        ([0x00, 0x0B, 0x00, 0x00, s.cfg.fwMajor, s.cfg.fwMinor] ++ le32 s.cfg.romSize ++ [s.cfg.mtl]) }

/-- R118: `Identify` issues `ENTER_ID`, `READ_MFR_ID`, `READ_DEV_ID`, `LEAVE_ID` in this order and then replies the two bytes
it read, manufacturer first; each step changes nothing else. -/
def Obligations.IdentifyIssuesFourTransactionsAndReplies : Prop :=
  ∀ (s : State), s.flashReq = none →
    (∀ (k : Nat) (op : FlashOp) (r : List Byte),
      [FlashOp.enterId, .readMfrId, .readDevId, .leaveId][k]? = some op → s.exec = some ⟨k, r⟩ →
      exec .identify s = .next { s with
        flashReq := some ⟨op, 0, 0⟩, exec := some ⟨k + 1, r⟩, trace := s.trace ++ [.flashReq ⟨op, 0, 0⟩] }) ∧
    (∀ m d : Byte, s.exec = some ⟨4, [m, d]⟩ →
      exec .identify s = .next { s with
        phase := .send, cmd := none, exec := none
        txQ := frameEncode s.cfg [0x01, 0x06, 0x00, 0x00, m, d] })

/-- R119: a `Read` of `1 <= len <= MTL` bytes inside the chip issues `READ_BYTE(addr + k)` as its k-th transaction, for `k` from
0 to `len - 1`, and then replies the `len` bytes it read; each step changes nothing else. -/
def Obligations.ReadIssuesAscendingReadsAndReplies : Prop :=
  ∀ (s : State) (addr : Addr) (len : Byte), s.flashReq = none →
    1 ≤ len.toNat → len.toNat ≤ s.cfg.mtl.toNat → addr.toNat + len.toNat ≤ s.cfg.romSize.toNat →
    (∀ (k : Nat) (r : List Byte), k < len.toNat → s.exec = some ⟨k, r⟩ →
      exec (.read addr len) s = .next { s with
        flashReq := some ⟨.readByte, addr + BitVec.ofNat 32 k, 0⟩, exec := some ⟨k + 1, r⟩
        trace := s.trace ++ [.flashReq ⟨.readByte, addr + BitVec.ofNat 32 k, 0⟩] }) ∧
    (∀ r : List Byte, r.length = len.toNat → s.exec = some ⟨len.toNat, r⟩ →
      exec (.read addr len) s = .next { s with
        phase := .send, cmd := none, exec := none
        txQ := frameEncode s.cfg ([0x02] ++ le16 (BitVec.ofNat 16 (4 + len.toNat)) ++ [0x00] ++ r) })

/-- R120: a `Write` of `1 <= n <= MTL` bytes inside the chip issues `WRITE_BYTE(addr + k, data[k])` as its k-th transaction and
then replies the status alone; each step changes nothing else. -/
def Obligations.WriteIssuesAscendingProgramsAndReplies : Prop :=
  ∀ (s : State) (addr : Addr) (data : List Byte), s.flashReq = none →
    1 ≤ data.length → data.length ≤ s.cfg.mtl.toNat → addr.toNat + data.length ≤ s.cfg.romSize.toNat →
    (∀ (k : Nat) (v : Byte) (r : List Byte), data[k]? = some v → s.exec = some ⟨k, r⟩ →
      exec (.write addr data) s = .next { s with
        flashReq := some ⟨.writeByte, addr + BitVec.ofNat 32 k, v⟩, exec := some ⟨k + 1, r⟩
        trace := s.trace ++ [.flashReq ⟨.writeByte, addr + BitVec.ofNat 32 k, v⟩] }) ∧
    (∀ r : List Byte, s.exec = some ⟨data.length, r⟩ →
      exec (.write addr data) s = .next { s with
        phase := .send, cmd := none, exec := none
        txQ := frameEncode s.cfg [0x03, 0x04, 0x00, 0x00] })

/-- R121: a `Crc` of a nonempty range inside the chip issues `READ_BYTE(start + k)` as its k-th transaction, over the whole
range, and then replies the CRC-16 of the bytes it read, little-endian; each step changes nothing else. -/
def Obligations.CrcIssuesAscendingReadsAndReplies : Prop :=
  ∀ (s : State) (start stop : Addr), s.flashReq = none →
    start.toNat < stop.toNat → stop.toNat ≤ s.cfg.romSize.toNat →
    (∀ (k : Nat) (r : List Byte), k < stop.toNat - start.toNat → s.exec = some ⟨k, r⟩ →
      exec (.crc start stop) s = .next { s with
        flashReq := some ⟨.readByte, start + BitVec.ofNat 32 k, 0⟩, exec := some ⟨k + 1, r⟩
        trace := s.trace ++ [.flashReq ⟨.readByte, start + BitVec.ofNat 32 k, 0⟩] }) ∧
    (∀ r : List Byte, r.length = stop.toNat - start.toNat → s.exec = some ⟨stop.toNat - start.toNat, r⟩ →
      exec (.crc start stop) s = .next { s with
        phase := .send, cmd := none, exec := none
        txQ := frameEncode s.cfg ([0x04, 0x06, 0x00, 0x00] ++ le16 (crc16 r)) })

/-- R123: an `EraseSector` of a nonempty sector-aligned range inside the chip issues `ERASE_SECTOR(start + k * SECTOR_SIZE)` as
its k-th transaction, `(end - start) / SECTOR_SIZE` in all, and then replies the status alone; each step changes nothing
else. -/
def Obligations.EraseIssuesOneEraseASectorAndReplies : Prop :=
  ∀ (s : State) (start stop : Addr), s.flashReq = none →
    start.toNat < stop.toNat → stop.toNat ≤ s.cfg.romSize.toNat →
    start.toNat % s.cfg.sectorSize.toNat = 0 → stop.toNat % s.cfg.sectorSize.toNat = 0 →
    (∀ (k : Nat) (r : List Byte), k < (stop.toNat - start.toNat) / s.cfg.sectorSize.toNat → s.exec = some ⟨k, r⟩ →
      exec (.erase start stop) s = .next { s with
        flashReq := some ⟨.eraseSector, start + BitVec.ofNat 32 (k * s.cfg.sectorSize.toNat), 0⟩
        exec := some ⟨k + 1, r⟩
        trace := s.trace ++
          [.flashReq ⟨.eraseSector, start + BitVec.ofNat 32 (k * s.cfg.sectorSize.toNat), 0⟩] }) ∧
    (∀ r : List Byte, s.exec = some ⟨(stop.toNat - start.toNat) / s.cfg.sectorSize.toNat, r⟩ →
      exec (.erase start stop) s = .next { s with
        phase := .send, cmd := none, exec := none
        txQ := frameEncode s.cfg [0x05, 0x04, 0x00, 0x00] })

/-- R124: `EraseChip` issues one `ERASE_CHIP`, with no address check, and then replies the status alone; each step changes
nothing else. -/
def Obligations.EraseChipIssuesOneEraseAndReplies : Prop :=
  ∀ (s : State), s.flashReq = none →
    (∀ r : List Byte, s.exec = some ⟨0, r⟩ →
      exec .erasechip s = .next { s with
        flashReq := some ⟨.eraseChip, 0, 0⟩, exec := some ⟨1, r⟩
        trace := s.trace ++ [.flashReq ⟨.eraseChip, 0, 0⟩] }) ∧
    (∀ r : List Byte, s.exec = some ⟨1, r⟩ →
      exec .erasechip s = .next { s with
        phase := .send, cmd := none, exec := none
        txQ := frameEncode s.cfg [0x06, 0x04, 0x00, 0x00] })

/-- R107 and R42: while a request is outstanding, the next step of every command is the flash driver's response: a read-type
response is added to the bytes returned, the request is no more outstanding, and the block's other state stays. That the event
recorded carries no byte for the five operations whose `rdata` is ignored is the model's choice, where R36 and R41 write
`FlashResp(rdata)` (assumption log 7). -/
def Obligations.FlashDriverAnswersTheOutstandingRequest : Prop :=
  ∀ (i : Instr) (s : State) (p : Progress) (q : FlashReq),
    s.exec = some p → s.flashReq = some q → q.legal s.cfg = true →
    exec i s = .next { s with
      flash := s.flash.after s.cfg q
      flashReq := none
      exec := some ⟨p.issued, p.reads ++ (s.flash.answer s.cfg q).toList⟩
      trace := s.trace ++ [.flashResp (s.flash.answer s.cfg q)] } ∧
    ((s.flash.answer s.cfg q).isSome ↔ q.op = .readByte ∨ q.op = .readMfrId ∨ q.op = .readDevId)

/-- R128 and R131: a command whose operands fail a check replies `[opcode, 04, 00, status]` in one step with no flash
transaction: `BadLength` before `BadAddress`; nothing else changes. -/
def Obligations.FailedChecksReplyTheStatusAlone : Prop :=
  ∀ (s : State) (p : Progress), s.exec = some p → s.flashReq = none →
    let replies (i : Instr) (packet : List Byte) : Prop :=
      exec i s = .next { s with
        phase := .send, cmd := none, exec := none, txQ := frameEncode s.cfg packet }
    (∀ addr len, s.cfg.mtl.toNat < len.toNat → replies (.read addr len) [0x02, 0x04, 0x00, 0x03]) ∧
    (∀ addr len, len.toNat ≤ s.cfg.mtl.toNat →
      len.toNat = 0 ∨ s.cfg.romSize.toNat < addr.toNat + len.toNat →
      replies (.read addr len) [0x02, 0x04, 0x00, 0x02]) ∧
    (∀ addr, replies (.write addr []) [0x03, 0x04, 0x00, 0x01]) ∧
    (∀ addr data, s.cfg.mtl.toNat < data.length → replies (.write addr data) [0x03, 0x04, 0x00, 0x03]) ∧
    (∀ addr data, 1 ≤ data.length → data.length ≤ s.cfg.mtl.toNat →
      s.cfg.romSize.toNat < addr.toNat + data.length → replies (.write addr data) [0x03, 0x04, 0x00, 0x02]) ∧
    (∀ start stop : Addr, stop.toNat ≤ start.toNat ∨ s.cfg.romSize.toNat < stop.toNat →
      replies (.crc start stop) [0x04, 0x04, 0x00, 0x02] ∧ replies (.erase start stop) [0x05, 0x04, 0x00, 0x02]) ∧
    (∀ start stop : Addr,
      start.toNat % s.cfg.sectorSize.toNat ≠ 0 ∨ stop.toNat % s.cfg.sectorSize.toNat ≠ 0 →
      replies (.erase start stop) [0x05, 0x04, 0x00, 0x02])

/-- R125 and R129: a handler whose status is not `None` has no flash transaction, and no frame is ever answered `TestMode`. -/
def Obligations.FailedFramesTouchNoFlash : Prop :=
  ∀ (cfg : Cfg) (f : List Byte),
    ((dispatch cfg f).status ≠ .none → (dispatch cfg f).ops = []) ∧ (dispatch cfg f).status ≠ .testMode

/-- The frame of every command, one step at a time: the configuration, the decoder, the bytes held by the source and the
schedule stay; the flash stays unless the driver answers a request, and then every cell outside those the request touches
reads as before, `tx_q`, `phase` and `cmd` stay, and the trace gains one event; the final step adds none. The cells a request
touches are those R120, R123 and R124 name; that every driver leaves the others alone is the model's reading (assumption
log 4). -/
def Obligations.CommandStepFrame : Prop :=
  ∀ (i : Instr) (s t : State), exec i s = .next t →
    t.cfg = s.cfg ∧ t.dec = s.dec ∧ t.rx = s.rx ∧ t.sched = s.sched ∧
    (s.flashReq = none → t.flash = s.flash) ∧
    (∀ q, s.flashReq = some q →
      t.flashReq = none ∧ t.txQ = s.txQ ∧ t.phase = s.phase ∧ t.cmd = s.cmd ∧
      ∀ a, q.touches s.cfg a = false →
        t.flash.array.readCell t.cfg a = s.flash.array.readCell s.cfg a) ∧
    ((t.exec ≠ none ∧ t.txQ = s.txQ ∧ t.phase = s.phase ∧ t.cmd = s.cmd ∧ ∃ e, t.trace = s.trace ++ [e]) ∨
     (t.exec = none ∧ t.flashReq = none ∧ t.phase = .send ∧ t.cmd = none ∧ t.trace = s.trace))

/-! ### The commands, from handover to reply -/

/-- R107, R113 and R116: from the handover of any frame, in `2 * |ops| + 1` steps, the handler's transactions are all performed
in list order, each answered before the next is issued, and the encoded reply stands in `tx_q`. `AtEntry` has nobody wait (the
empty schedule, assumption log 2), and the responses in the trace carry no ignored `rdata` (assumption log 7): the model's
choices. -/
def Obligations.HandlerRunsToItsReply : Prop :=
  ∀ (f : List Byte) (s : State), AtEntry f s →
    runSteps (2 * (dispatch s.cfg f).ops.length + 1) s = .next (afterExec f s)

/-- R118: after a whole `Identify` the driver is outside ID mode again, every cell reads as before, and the reference driver's
reply is `MFR_ID`, `DEV_ID` (R57). -/
def Obligations.IdentifyLeavesIdMode : Prop :=
  ∀ (s : State), AtEntry [0x01, 0x03, 0x00] s →
    ∃ t, runSteps 9 s = .next t ∧ t.phase = .send ∧ t.flash.idMode = false ∧ t.flash.array = s.flash.array ∧
      (∀ cells, s.flash.array = .reference cells →
        t.txQ = frameEncode s.cfg [0x01, 0x06, 0x00, 0x00, 0xBF, 0xB7])

/-- R119: a whole `Read` of a range inside the chip replies the cells of the range in ascending order and leaves the flash as
it was. -/
def Obligations.ReadReturnsTheCellsOfItsRange : Prop :=
  ∀ (s : State) (addr : Addr) (len : Byte), AtEntry (encode (.read addr len)) s → s.flash.idMode = false →
    1 ≤ len.toNat → len.toNat ≤ s.cfg.mtl.toNat → addr.toNat + len.toNat ≤ s.cfg.romSize.toNat →
    ∃ t, runSteps (2 * len.toNat + 1) s = .next t ∧ t.phase = .send ∧ t.flash = s.flash ∧
      t.txQ = frameEncode s.cfg ([0x02] ++ le16 (BitVec.ofNat 16 (4 + len.toNat)) ++ [0x00] ++
        (List.range len.toNat).map fun i => s.flash.array.readCell s.cfg (addr.toNat + i))

/-- R120: a whole `Write` of a range inside the chip performs its programs and replies the status alone, and on the reference
driver (R57) the cells of the range read the bytes written. That every cell outside `[addr, addr + n)` reads as before, for every
driver, is the model's reading of R120's 'State written' (assumption log 4). -/
def Obligations.WriteChangesOnlyItsRange : Prop :=
  ∀ (s : State) (addr : Addr) (data : List Byte), AtEntry (encode (.write addr data)) s →
    1 ≤ data.length → data.length ≤ s.cfg.mtl.toNat → addr.toNat + data.length ≤ s.cfg.romSize.toNat →
    ∃ t, runSteps (2 * data.length + 1) s = .next t ∧ t.phase = .send ∧
      t.txQ = frameEncode s.cfg [0x03, 0x04, 0x00, 0x00] ∧
      (∀ a, a < addr.toNat ∨ addr.toNat + data.length ≤ a →
        t.flash.array.readCell s.cfg a = s.flash.array.readCell s.cfg a) ∧
      (∀ cells, s.flash.array = .reference cells → cells.wf →
        ∀ i v, data[i]? = some v → t.flash.array.readCell s.cfg (addr.toNat + i) = v)

/-- R121: a whole `Crc` of a range inside the chip replies the CRC-16 of the range's cells in ascending order and leaves the
flash as it was, so the same command over unchanged flash gives the same reply. -/
def Obligations.CrcReturnsTheCrcOfItsRange : Prop :=
  ∀ (s : State) (start stop : Addr), AtEntry (encode (.crc start stop)) s → s.flash.idMode = false →
    start.toNat < stop.toNat → stop.toNat ≤ s.cfg.romSize.toNat →
    ∃ t, runSteps (2 * (stop.toNat - start.toNat) + 1) s = .next t ∧ t.phase = .send ∧ t.flash = s.flash ∧
      t.txQ = frameEncode s.cfg ([0x04, 0x06, 0x00, 0x00] ++
        le16 (crc16 ((List.range (stop.toNat - start.toNat)).map fun i =>
          s.flash.array.readCell s.cfg (start.toNat + i))))

/-- R123: a whole `EraseSector` performs its erases and replies the status alone, and on the reference driver (R57) the cells of
the range read the erased value. That every cell outside `[start, end)` reads as before, for every driver, is the model's reading
of R123's 'State written' (assumption log 4). -/
def Obligations.EraseChangesOnlyItsRange : Prop :=
  ∀ (s : State) (start stop : Addr), AtEntry (encode (.erase start stop)) s →
    start.toNat < stop.toNat → stop.toNat ≤ s.cfg.romSize.toNat →
    start.toNat % s.cfg.sectorSize.toNat = 0 → stop.toNat % s.cfg.sectorSize.toNat = 0 →
    ∃ t, runSteps (2 * ((stop.toNat - start.toNat) / s.cfg.sectorSize.toNat) + 1) s = .next t ∧ t.phase = .send ∧
      t.txQ = frameEncode s.cfg [0x05, 0x04, 0x00, 0x00] ∧
      (∀ a, a < start.toNat ∨ stop.toNat ≤ a →
        t.flash.array.readCell s.cfg a = s.flash.array.readCell s.cfg a) ∧
      (∀ cells, s.flash.array = .reference cells →
        ∀ a, start.toNat ≤ a → a < stop.toNat → t.flash.array.readCell s.cfg a = 0xFF)

/-- R124: a whole `EraseChip` performs one chip erase; on the reference driver (R57) every cell then reads the erased value. -/
def Obligations.EraseChipErasesEveryCell : Prop :=
  ∀ (s : State), AtEntry [0x06, 0x03, 0x00] s →
    ∃ t, runSteps 3 s = .next t ∧ t.phase = .send ∧ t.txQ = frameEncode s.cfg [0x06, 0x04, 0x00, 0x00] ∧
      t.flash = s.flash.after s.cfg ⟨.eraseChip, 0, 0⟩ ∧
      (∀ cells, s.flash.array = .reference cells → ∀ a, t.flash.array.readCell s.cfg a = 0xFF)

/-- R114: exactly one reply per frame. A quiescent block that is offered the encoded frame of any `f` of at most `MAX_PACKET`
bytes, a command or not, and empty only under `Emit` (R112), takes all of it, performs the transactions of its handler, sends
exactly one encoded reply, all of it before the next byte is taken, and is quiescent again with everything else as it was. Nobody
waits (the empty schedule, assumption log 2), and the responses in the trace carry no ignored `rdata` (assumption log 7): the
model's choices. -/
def Obligations.ExactlyOneReplyPerFrame : Prop :=
  ∀ (s : State) (f rest : List Byte), s.cfg.legal = true → Quiescent s → s.sched = [] →
    s.rx = frameEncode s.cfg f ++ rest → 1 ≤ f.length ∨ s.cfg.emptyFrame = .emit → f.length ≤ s.cfg.maxPacket →
    Reaches s { s with
      rx := rest
      flash := flashAfterAll s.cfg (dispatch s.cfg f).ops s.flash
      trace := s.trace ++ (frameEncode s.cfg f).map Event.rxByte ++
        flashEventsOf s.cfg (dispatch s.cfg f).ops s.flash ++
        (frameEncode s.cfg (replyPacket s.cfg f s.flash)).map Event.txByte }

/-- R151: a run of any command sequence completes. From a quiescent block with no byte held, any frames of at most `MAX_PACKET`
bytes, commands or not, and empty only under `Emit`, have a complete run; at its end the flash driver has performed their
transactions in order, and the bytes sent are their encoded replies, one for each frame. That a run begins at a quiescent block is
the model's choice, where R151 names no first state (assumption log 18), and nobody waits (the empty schedule is the model's own,
assumption log 2). -/
def Obligations.CommandRunsComplete : Prop :=
  ∀ (s : State) (cs : List (List Byte)), s.cfg.legal = true → Quiescent s → s.sched = [] → s.rx = [] →
    (∀ c ∈ cs, (1 ≤ c.length ∨ s.cfg.emptyFrame = .emit) ∧ c.length ≤ s.cfg.maxPacket) →
    ∃ t, CommandRun s cs t ∧ Quiescent t ∧ t.cfg = s.cfg ∧ t.flash = flashAfterCommands s.cfg cs s.flash ∧
      sentBytes t.trace = sentBytes s.trace ++ (repliesOf s.cfg cs s.flash).flatMap (frameEncode s.cfg) ∧
      (repliesOf s.cfg cs s.flash).length = cs.length

/-! ### The machine -/

/-- R109 and R107: in `EXEC`, when the bytes in `cmd` decode to a command, a step of the machine is `exec` of that command. The
schedule is the model's own field, and that a turn of it which lets the block move is used up first is the model's choice
(assumption log 2). -/
def Obligations.StepRunsTheDecodedCommand : Prop :=
  ∀ (s : State) (f : List Byte) (i : Instr), s.cfg.legal = true → s.phase = .exec → s.cmd = some f →
    decodeCommand f = .ok i →
    (s.sched = [] → step s = exec i s) ∧
    (∀ rest, s.sched = .go :: rest → step s = exec i { s with sched := rest })

/-- A word of the opcode table placed by `withFetchWord` is what the very next step runs. How a word of the table becomes a packet
is the model's own convention (assumption log 9). -/
def Obligations.FetchedWordRunsNext : Prop :=
  ∀ (s : State) (nbits w : Nat) (i : Instr), s.cfg.legal = true → decodeTableWord nbits w = some i →
    step (s.withFetchWord nbits w) = exec i (s.withFetchWord nbits w)

/-- A frame that carries no command is answered `BadCommand` in one step, with the opcode byte it came with (`NO_OPCODE` for the
empty frame) and no flash transaction: a bad header (R110), an unknown opcode (R111), the empty frame (R112), and a payload of the
wrong length (the first check of R117 to R121, R123 and R124; R128; R131 item 4), which this model makes in the decoder
(assumption log 12). -/
def Obligations.RejectedFramesAreAnsweredBadCommand : Prop :=
  ∀ (s : State) (f : List Byte) (e : Reject), AtEntry f s → decodeCommand f = .error e →
    step s = .next { s with
      phase := .send, cmd := none, exec := none
      txQ := frameEncode s.cfg [f.headD 0xFF, 0x04, 0x00, 0x01] }

/-- R106: in `RECV` the block takes the byte offered and gives it to the decoder; a completed frame becomes `cmd` and starts
phase `EXEC`, a framing error is only recorded, and nothing else changes. The empty schedule lets the step happen (assumption
log 2). -/
def Obligations.ReceiveTakesOneByte : Prop :=
  ∀ (s : State) (b : Byte) (rest : List Byte) (o : DecOut), s.cfg.legal = true → s.phase = .recv → s.sched = [] →
    s.rx = b :: rest → decStep s.cfg s.dec b = some o →
    (o.emit = none → step s = .next { s with
      rx := rest, dec := o.dec
      trace := s.trace ++ .rxByte b :: (o.err.toList.map .framingError) }) ∧
    (∀ f, o.emit = some f → step s = .next { s with
      rx := rest, dec := o.dec, cmd := some f, exec := some ⟨0, []⟩, phase := .exec
      trace := s.trace ++ .rxByte b :: (o.err.toList.map .framingError) })

/-- R108: in `SEND` the block emits the first byte of `tx_q` and returns to `RECV` after the last. The empty schedule has the sink
accept the byte (assumption log 2). -/
def Obligations.SendEmitsOneByte : Prop :=
  ∀ (s : State) (b : Byte) (rest : List Byte), s.cfg.legal = true → s.phase = .send → s.sched = [] →
    s.txQ = b :: rest →
    step s = .next { s with
      txQ := rest
      phase := (if rest = [] then .recv else .send)
      trace := s.trace ++ [.txByte b] }

/-- R106 and R127: the decoder never reports a frame and a framing error for one byte, and a byte that is a framing error leaves
the block in `RECV` with no reply and no flash transaction. -/
def Obligations.FramingErrorsStayInTheDecoder : Prop :=
  ∀ (s t : State) (k : FramingError), s.phase = .recv → s.sched = [] → step s = .next t →
    t.trace = s.trace ++ [.rxByte (s.rx.headD 0), .framingError k] →
    t.phase = .recv ∧ t.cmd = s.cmd ∧ t.exec = s.exec ∧ t.txQ = s.txQ ∧ t.flashReq = s.flashReq ∧
      t.flash = s.flash ∧ t.dec.rxLen = 0

/-- R21, R22 and R34: the unused encodings of `phase` and `dec_state`, and the absence of `cmd` or of `exec` in `EXEC`, are
faults. -/
def Obligations.AbsentStateFaults : Prop :=
  ∀ s : State, s.cfg.legal = true → s.sched = [] →
    (s.phase = .unused → step s = .fault .unusedPhase) ∧
    (s.phase = .recv → s.dec.st = .unused → s.rx ≠ [] → step s = .fault .unusedDecState) ∧
    (s.phase = .exec → s.cmd = none → step s = .fault .cmdAbsent) ∧
    (∀ f, s.phase = .exec → s.cmd = some f → s.exec = none → step s = .fault .execAbsent)

/-- An outstanding request with an address the chip does not have (R38), or an erase that starts at no sector's base, breaks R43,
and the driver's response to it is a fault, whatever the command. That it faults is the model's choice, for states that no run
reaches (assumption log 8). -/
def Obligations.IllegalFlashRequestsFault : Prop :=
  ∀ (s : State) (f : List Byte) (p : Progress) (q : FlashReq), s.cfg.legal = true → s.sched = [] →
    s.phase = .exec → s.cmd = some f → s.exec = some p → s.flashReq = some q →
    (q.op = .readByte ∨ q.op = .writeByte ∨ q.op = .eraseSector → s.cfg.romSize.toNat ≤ q.addr.toNat →
      step s = .fault .illegalFlashRequest) ∧
    (q.op = .eraseSector → q.addr.toNat % s.cfg.sectorSize.toNat ≠ 0 → step s = .fault .illegalFlashRequest)

/-- R27: a configuration that breaks a constraint of R26 is refused and no step is taken from it; R27's examples: a `ROM_SIZE`
that is no power of two, `SECTOR_SIZE > ROM_SIZE`, `MTL = 0`, `MARKER = ESCAPE`. -/
def Obligations.IllegalConfigurationIsRefused : Prop :=
  ∀ s : State,
    (s.cfg.legal = false → step s = .refused .illegalConfig) ∧
    ((∀ k, s.cfg.romSize.toNat ≠ 2 ^ k) → step s = .refused .illegalConfig) ∧
    (s.cfg.romSize.toNat < s.cfg.sectorSize.toNat → step s = .refused .illegalConfig) ∧
    (s.cfg.mtl.toNat = 0 → step s = .refused .illegalConfig) ∧
    (s.cfg.marker = s.cfg.escape → step s = .refused .illegalConfig)

/-- R26: the legal configurations are those of R26's table and R8's constraints. -/
def Obligations.LegalConfigurationsAreThoseOfTheSpec : Prop :=
  ∀ c : Cfg, c.legal = true ↔
    (∃ k j, k ≤ 31 ∧ j ≤ k ∧ c.romSize.toNat = 2 ^ k ∧ c.sectorSize.toNat = 2 ^ j) ∧
    1 ≤ c.mtl.toNat ∧ c.marker ≠ c.escape ∧ c.escXor ≠ 0 ∧
    c.inEscapeSet c.marker = true ∧ c.inEscapeSet c.escape = true ∧
    ∀ b, c.inEscapeSet b = true → b ^^^ c.escXor ≠ c.marker

/-- R37: the state after reset, for every configuration as supplied and every flash array, and so for `State.reset`: `RECV`,
`Idle`, `rx_len = 0` with no byte of `rx_buf` held, `cmd` and `exec` holding no value, an empty `tx_q`, no flash request
outstanding, `rx_ready` true and `tx_valid` false. -/
def Obligations.ResetStateIsAsStated : Prop :=
  let asStated (s : State) : Prop :=
    s.phase = .recv ∧ s.dec.st = .idle ∧ s.dec.rxLen = 0 ∧ s.dec.buf = [] ∧ s.cmd = none ∧ s.exec = none ∧ s.txQ = [] ∧
      s.rxReady = true ∧ s.txValid = false ∧ s.flashReq = none
  (∀ (cfg : Cfg) (array : FlashArray),
    asStated (State.resetWith cfg array) ∧ (State.resetWith cfg array).cfg = cfg) ∧
  asStated State.reset

/-- R141: the event `Reset`, at any point of a run, puts every field of the block into its reset value and sends nothing; with
no request outstanding the flash array is untouched. The rest is the model's: the event arrives as a turn of the schedule
(assumption log 2), a request outstanding is cut short and every cell it does not touch reads as before (assumption logs 4 and
17), the driver is outside ID mode afterwards, which is a reading of R142 (2) (assumption log 6), the bytes held by the source
stay (assumption log 11), and the trace gains nothing (assumption log 14). -/
def Obligations.ResetAbandonsTheCommand : Prop :=
  ∀ (s : State) (rest : List Turn), s.cfg.legal = true → s.sched = .reset :: rest →
    ∃ fl : Flash, step s = .next { s with
        phase := .recv, dec := ⟨.idle, []⟩, cmd := none, exec := none, txQ := [], flashReq := none
        flash := fl, sched := rest } ∧
      fl.idMode = false ∧
      (s.flashReq = none → fl.array = s.flash.array) ∧
      (∀ q, s.flashReq = some q → ∀ a, q.touches s.cfg a = false →
        fl.array.readCell s.cfg a = s.flash.array.readCell s.cfg a)

/-- R42 and R116: while the environment holds the agent that could move, nothing changes but the schedule (the schedule as a list
of turns is the model's own field, assumption log 2); and in `RECV` with no byte offered the block waits. -/
def Obligations.WaitingChangesNothing : Prop :=
  ∀ s : State, s.cfg.legal = true →
    (∀ rest, s.sched = .stall :: rest → step s = .next { s with sched := rest }) ∧
    (s.sched = [] → s.phase = .recv → s.rx = [] → step s = .next s)

/-- R35: the invariants (a) to (e) hold after reset, whatever the configuration, the flash array, the bytes offered and the
schedule. -/
def Obligations.ShapeHoldsAtReset : Prop :=
  ∀ (cfg : Cfg) (array : FlashArray) (bytes : List Byte) (turns : List Turn),
    WellShaped { State.resetWith cfg array with rx := bytes, sched := turns }

/-- R35: every step keeps the invariants (a) to (e). -/
def Obligations.EveryStepKeepsTheShape : Prop :=
  ∀ s t : State, WellShaped s → step s = .next t → WellShaped t

/-- The safety invariant holds after reset under every legal configuration, whatever the flash array, the bytes offered and the
schedule. -/
def Obligations.SafetyHoldsAtReset : Prop :=
  ∀ (cfg : Cfg) (array : FlashArray) (bytes : List Byte) (turns : List Turn), cfg.legal = true →
    Safe { State.resetWith cfg array with rx := bytes, sched := turns }

/-- R43 and R34: every step keeps the safety invariant, for every byte sequence on `rx`: in particular every flash request in
the trace stays inside the chip, and software-ID mode is never left entered at a reply (R118). That it is not left entered after a
`Reset` in the middle of an `Identify` either is the model's reading of R142 (2) (assumption log 6). -/
def Obligations.EveryStepKeepsSafety : Prop :=
  ∀ s t : State, Safe s → step s = .next t → Safe t

/-- R34 and R116: in a safe state a step is no fault and no refusal. It may be a wait (93 U22 to U24): in `RECV` with no byte
offered the next state is the same. -/
def Obligations.SafeStatesAlwaysStep : Prop :=
  ∀ s : State, Safe s → ∃ t, step s = .next t

/-- R26 and R36: a step never changes the configuration and never takes back an event. The trace as a field of State is the
model's own (assumption log 14). -/
def Obligations.StepsKeepTheConfigurationAndTheTrace : Prop :=
  ∀ s t : State, step s = .next t → t.cfg = s.cfg ∧ ∃ es, t.trace = s.trace ++ es

/-- The reference driver's array stays in its canonical form through every step, a `Reset` included. The array is R57's; the
form, a list of cells with rising addresses and no erased one, is the model's own (assumption log 13). -/
def Obligations.FlashArrayStaysCanonical : Prop :=
  ∀ s t : State, s.flash.array.wf → step s = .next t → t.flash.array.wf

/-! ### CRC and the host's side -/

/-- R122: the CRC's stated values, and a run of zero bytes leaves it 0. -/
def Obligations.CrcReferenceValues : Prop :=
  (∀ n, crc16 (List.replicate n 0x00) = 0x0000) ∧
  crc16 [0x01] = 0x1021 ∧ crc16 [0xFF] = 0x1EF0 ∧
  crc16 [0x31, 0x32, 0x33, 0x34, 0x35, 0x36, 0x37, 0x38, 0x39] = 0x31C3 ∧
  crc16 (List.replicate 10 0xAA) = 0x8A8F

/-- R93: a conforming host decodes the reply of every frame it sends that carries a command: `Ok` with the body when the status
is `None`, `Failed` with the status otherwise; the bytes the handler's reads returned are as many as it has read
transactions. -/
def Obligations.HostDecodesEveryReply : Prop :=
  ∀ (cfg : Cfg) (i : Instr) (reads : List Byte) (reqLen : Nat), cfg.legal = true →
    reads.length = (handlerOf cfg i).ops.countP (fun q => q.op.isRead) →
    (∀ a n, i = .read a n → reqLen = n.toNat) →
    decodeReply i.opcode reqLen ((handlerOf cfg i).reply reads) =
      if (handlerOf cfg i).status = .none then .ok ((handlerOf cfg i).body reads)
      else .failed (handlerOf cfg i).status

/-- R73: the expansion of the CLI's `write` covers its file: the commands' data, joined in order, is the file, each command
carries 1 to `MTL` bytes, and the k-th begins at `start + k * MTL`. -/
def Obligations.CliWriteCoversItsFile : Prop :=
  ∀ (cfg : Cfg) (start : Nat) (file : List Byte), cfg.legal = true → start + file.length ≤ cfg.romSize.toNat →
    ((expandCli cfg (.write start file)).flatMap
      (fun i => match i with | .write _ d => d | _ => [])) = file ∧
    ∀ k i, (expandCli cfg (.write start file))[k]? = some i →
      ∃ a d, i = .write a d ∧ 1 ≤ d.length ∧ d.length ≤ cfg.mtl.toNat ∧
        a.toNat = start + k * cfg.mtl.toNat
end

