-- ==== Sys2Proof/Laws/Bytes.lean ====
section
/-! SUPPORT. The little-endian helpers read back what they write (00_scope.md R14), and the lengths of packets. -/

namespace Sys2Proof

@[simp] theorem le16_length (v : Half) : (le16 v).length = 2 := rfl
@[simp] theorem le32_length (v : Addr) : (le32 v).length = 4 := rfl

theorem toNat_low_byte {w : Nat} (v : BitVec w) (k : Nat) :
    (v.extractLsb' k 8).toNat = v.toNat / 2 ^ k % 256 := by
  simp [BitVec.extractLsb'_toNat, Nat.shiftRight_eq_div_pow]

/-- `rdLE16` reads back `LE16`. -/
theorem rdLE16_le16 (v : Half) : rdLE16 (v.extractLsb' 0 8) (v.extractLsb' 8 8) = v.toNat := by
  have := v.isLt
  simp only [rdLE16, toNat_low_byte]
  omega

/-- `rdLE32` reads back `LE32`. -/
theorem rdLE32_le32 (v : Addr) :
    rdLE32 (v.extractLsb' 0 8) (v.extractLsb' 8 8) (v.extractLsb' 16 8) (v.extractLsb' 24 8) = v := by
  have := v.isLt
  apply BitVec.eq_of_toNat_eq
  simp only [rdLE32, toNat_low_byte, BitVec.toNat_ofNat]
  omega

theorem rdLE16_lt (b0 b1 : Byte) : rdLE16 b0 b1 < 65536 := by
  have h0 := b0.isLt
  have h1 := b1.isLt
  simp only [rdLE16]
  omega

/-- `LE16` writes back what `rdLE16` read. -/
theorem le16_rdLE16 (b0 b1 : Byte) : le16 (BitVec.ofNat 16 (rdLE16 b0 b1)) = [b0, b1] := by
  have h0 := b0.isLt
  have h1 := b1.isLt
  have e0 : (BitVec.ofNat 16 (rdLE16 b0 b1)).extractLsb' 0 8 = b0 := by
    apply BitVec.eq_of_toNat_eq
    simp only [toNat_low_byte, BitVec.toNat_ofNat, rdLE16]
    omega
  have e1 : (BitVec.ofNat 16 (rdLE16 b0 b1)).extractLsb' 8 8 = b1 := by
    apply BitVec.eq_of_toNat_eq
    simp only [toNat_low_byte, BitVec.toNat_ofNat, rdLE16]
    omega
  simp only [le16, e0, e1]

/-- `LE32` writes back what `rdLE32` read. -/
theorem le32_rdLE32 (b0 b1 b2 b3 : Byte) : le32 (rdLE32 b0 b1 b2 b3) = [b0, b1, b2, b3] := by
  have h0 := b0.isLt
  have h1 := b1.isLt
  have h2 := b2.isLt
  have h3 := b3.isLt
  have e (k : Nat) (b : Byte)
      (h : (b0.toNat + 2 ^ 8 * b1.toNat + 2 ^ 16 * b2.toNat + 2 ^ 24 * b3.toNat) % 2 ^ 32 / 2 ^ k % 256 = b.toNat) :
      (rdLE32 b0 b1 b2 b3).extractLsb' k 8 = b := by
    apply BitVec.eq_of_toNat_eq
    simpa only [toNat_low_byte, BitVec.toNat_ofNat, rdLE32] using h
  simp only [le32, e 0 b0 (by omega), e 8 b1 (by omega), e 16 b2 (by omega), e 24 b3 (by omega)]

@[simp] theorem buildPacket_length (op : Byte) (pl : List Byte) : (buildPacket op pl).length = 3 + pl.length := by
  simp only [buildPacket, List.length_cons, List.length_append, le16_length]
  omega

/-- The header of a built packet parses back, while its length fits the u16 field (R88, R91). -/
theorem parseHeader_buildPacket (op : Byte) (pl : List Byte) (h : 3 + pl.length < 65536) :
    parseHeader (buildPacket op pl) = some (op, pl) := by
  have : rdLE16 ((BitVec.ofNat 16 (3 + pl.length)).extractLsb' 0 8)
      ((BitVec.ofNat 16 (3 + pl.length)).extractLsb' 8 8) = pl.length + 3 := by
    rw [rdLE16_le16, BitVec.toNat_ofNat]
    omega
  simp only [buildPacket, le16, List.cons_append, List.nil_append, parseHeader, this, if_true]

/-- A frame whose header parses is the packet built of its opcode and payload (R91). -/
theorem buildPacket_of_parseHeader {f : List Byte} {op : Byte} {pl : List Byte}
    (h : parseHeader f = some (op, pl)) : f = buildPacket op pl ∧ 3 + pl.length < 65536 := by
  match f, h with
  | o :: l0 :: l1 :: rest, h =>
    simp only [parseHeader] at h
    split at h
    · rename_i hl
      obtain ⟨rfl, rfl⟩ : o = op ∧ rest = pl := by simpa using h
      have hlt := rdLE16_lt l0 l1
      refine ⟨?_, by omega⟩
      rw [buildPacket, Nat.add_comm 3, ← hl, le16_rdLE16]
      rfl
    · cases h

end Sys2Proof
end

