-- ==== Sys2Proof/Laws/Memory.lean ====
section
/-! SUPPORT. The memory laws: a read after a write, cells left alone, and that every memory operation keeps the canonical
form. -/

namespace Sys2Proof.Machine

@[simp] theorem Memory.read_nil (a : Nat) : Memory.read [] a = erasedValue := rfl

theorem Memory.read_cons_other {a b : Nat} (h : a ≠ b) (v : Byte) (m : Memory) :
    Memory.read (Memory.cons b v m) a = Memory.read m a := by
  unfold Memory.cons
  split
  · rfl
  · simp only [Memory.read]
    exact if_neg fun e => h e.symm

/-- A write leaves every other cell alone. -/
theorem Memory.read_write_other (m : Memory) {a b : Nat} (h : a ≠ b) (v : Byte) :
    (Memory.write m b v).read a = m.read a := by
  induction m with
  | nil => exact Memory.read_cons_other h v []
  | cons c m ih =>
    simp only [Memory.write]
    split
    · exact Memory.read_cons_other h v _
    · split
      · rename_i _ hc
        rw [Memory.read_cons_other h]
        simp only [Memory.read]
        exact (if_neg fun e => h (e.symm.trans hc.symm)).symm
      · simp only [Memory.read, ih]

/-- A cell below every listed address reads as the erased value. -/
theorem Memory.read_of_below (m : Memory) (a : Nat) (h : ∀ c ∈ m, a < c.1) : m.read a = erasedValue := by
  induction m with
  | nil => rfl
  | cons c m ih =>
    have hc := h c (by simp)
    simp only [Memory.read]
    rw [if_neg (by omega)]
    exact ih fun d hd => h d (by simp [hd])

theorem Memory.read_cons_same (a : Nat) (v : Byte) (m : Memory) (h : ∀ c ∈ m, a < c.1) :
    (Memory.cons a v m).read a = v := by
  unfold Memory.cons
  split
  · rename_i hv
    rw [Memory.read_of_below m a h, hv]
  · simp [Memory.read]

/-- A read after a write to the same cell of a canonical memory gives the byte written. -/
theorem Memory.read_write_same (m : Memory) (hm : m.wf) (a : Nat) (v : Byte) : (Memory.write m a v).read a = v := by
  induction m with
  | nil => exact Memory.read_cons_same a v [] (by simp)
  | cons c m ih =>
    obtain ⟨hp, hn⟩ := hm
    rw [List.pairwise_cons] at hp
    simp only [Memory.write]
    split
    · rename_i hlt
      refine Memory.read_cons_same a v _ fun d hd => ?_
      rcases List.mem_cons.mp hd with rfl | hd
      · exact hlt
      · exact Nat.lt_trans hlt (hp.1 d hd)
    · split
      · rename_i _ he
        exact Memory.read_cons_same a v _ fun d hd => he ▸ hp.1 d hd
      · rename_i _ hne
        simp only [Memory.read]
        rw [if_neg fun e => hne e.symm]
        exact ih ⟨hp.2, fun d hd => hn d (List.mem_cons_of_mem _ hd)⟩

/-- Every entry of a written memory is an old one or the one written. -/
theorem Memory.mem_cons_cell {a : Nat} {v : Byte} {m : Memory} {c : Host.Cell} (h : c ∈ Memory.cons a v m) :
    c ∈ m ∨ (c = (a, v) ∧ v ≠ erasedValue) := by
  unfold Memory.cons at h
  split at h
  · exact .inl h
  · rcases List.mem_cons.mp h with rfl | h
    · exact .inr ⟨rfl, ‹_›⟩
    · exact .inl h

theorem Memory.mem_write {a : Nat} {v : Byte} {m : Memory} {c : Host.Cell} (h : c ∈ Memory.write m a v) :
    c ∈ m ∨ (c = (a, v) ∧ v ≠ erasedValue) := by
  induction m with
  | nil => exact Memory.mem_cons_cell h
  | cons d m ih =>
    simp only [Memory.write] at h
    split at h
    · exact Memory.mem_cons_cell h
    · split at h
      · exact (Memory.mem_cons_cell h).imp_left (List.mem_cons_of_mem _)
      · rcases List.mem_cons.mp h with rfl | h
        · exact .inl (by simp)
        · exact (ih h).imp_left (List.mem_cons_of_mem _)

theorem Memory.wf_tail {c : Host.Cell} {m : Memory} (h : Memory.wf (c :: m)) : m.wf :=
  ⟨(List.pairwise_cons.mp h.1).2, fun d hd => h.2 d (List.mem_cons_of_mem _ hd)⟩

theorem Memory.cons_wf {a : Nat} {v : Byte} {m : Memory} (hm : m.wf) (h : ∀ c ∈ m, a < c.1) :
    (Memory.cons a v m).wf := by
  unfold Memory.cons
  split
  · exact hm
  · refine ⟨List.pairwise_cons.mpr ⟨h, hm.1⟩, fun c hc => ?_⟩
    rcases List.mem_cons.mp hc with rfl | hc
    · assumption
    · exact hm.2 c hc

/-- A write keeps the canonical form. -/
theorem Memory.write_wf {m : Memory} (hm : m.wf) (a : Nat) (v : Byte) : (Memory.write m a v).wf := by
  induction m with
  | nil => exact Memory.cons_wf hm (by simp)
  | cons c m ih =>
    have ht := Memory.wf_tail hm
    have hp := (List.pairwise_cons.mp hm.1).1
    simp only [Memory.write]
    split
    · rename_i hlt
      refine Memory.cons_wf hm fun d hd => ?_
      rcases List.mem_cons.mp hd with rfl | hd
      · exact hlt
      · exact Nat.lt_trans hlt (hp d hd)
    · split
      · rename_i _ he
        exact Memory.cons_wf ht fun d hd => he ▸ hp d hd
      · have hi := ih ht
        refine ⟨List.pairwise_cons.mpr ⟨fun d hd => ?_, hi.1⟩, fun d hd => ?_⟩
        · rcases Memory.mem_write hd with hd | ⟨rfl, _⟩
          · exact hp d hd
          · simp only
            omega
        · rcases List.mem_cons.mp hd with rfl | hd
          · exact hm.2 _ (by simp)
          · exact hi.2 d hd

/-- Erasing a range keeps the canonical form. -/
theorem Memory.eraseRange_wf {m : Memory} (hm : m.wf) (lo hi : Nat) : (m.eraseRange lo hi).wf :=
  ⟨hm.1.sublist List.filter_sublist, fun c hc => hm.2 c (List.mem_of_mem_filter hc)⟩

/-- An erased range reads as the erased value, and every other cell reads as before. -/
theorem Memory.read_eraseRange (m : Memory) (lo hi a : Nat) :
    (m.eraseRange lo hi).read a = if lo ≤ a ∧ a < hi then erasedValue else m.read a := by
  induction m with
  | nil => simp [Memory.eraseRange]
  | cons c m ih =>
    unfold Memory.eraseRange at ih ⊢
    rw [List.filter_cons]
    by_cases hc : lo ≤ c.1 ∧ c.1 < hi
    · rw [if_neg (by simp [hc.1, hc.2]), ih]
      split
      · rfl
      · rename_i hout
        simp only [Memory.read]
        rw [if_neg]
        rintro rfl
        exact hout hc
    · rw [if_pos (by simp only [Bool.not_eq_true', Bool.and_eq_false_iff, decide_eq_false_iff_not]; omega)]
      simp only [Memory.read, ih]
      split
      · rename_i he
        rw [if_neg (by rw [← he]; exact hc)]
      · rfl

/-- Writing a row of cells keeps the canonical form. -/
theorem Memory.writeAll_wf {m : Memory} (hm : m.wf) (lo : Nat) (vs : List Byte) : (m.writeAll lo vs).wf := by
  induction vs generalizing m lo with
  | nil => exact hm
  | cons v vs ih => exact ih (Memory.write_wf hm lo v) (lo + 1)

/-- Writing a row of cells leaves the cells outside it alone. -/
theorem Memory.read_writeAll_other (m : Memory) (lo : Nat) (vs : List Byte) (a : Nat)
    (h : a < lo ∨ lo + vs.length ≤ a) : (m.writeAll lo vs).read a = m.read a := by
  induction vs generalizing m lo with
  | nil => rfl
  | cons v vs ih =>
    simp only [List.length_cons] at h
    rw [Memory.writeAll, ih _ _ (by omega)]
    exact Memory.read_write_other m (by omega) v

/-- What a performed request does to the flash array, said once: a cell it does not touch reads as before (R120, R123,
R124). -/
theorem FlashArray.readCell_after (cfg : Cfg) (q : FlashReq) (m : FlashArray) (a : Nat)
    (h : q.touches cfg a = false) : (m.after cfg q).readCell cfg a = m.readCell cfg a := by
  cases m with
  | drawn changes =>
    simp only [FlashArray.after, FlashArray.readCell]
    split
    · simp [List.filter_append, FlashChange.req, h]
    · rfl
  | reference cells =>
    simp only [FlashArray.after, FlashArray.readCell, referenceAfter]
    cases hop : q.op <;> simp only [FlashReq.touches, hop] at h ⊢
    case writeByte => exact Memory.read_write_other _ (by simpa using h) _
    case eraseSector =>
      rw [Memory.read_eraseRange, if_neg]
      simpa using h
    case eraseChip => simp at h

/-- Requests that change no array leave it as it is. -/
theorem FlashArray.after_of_not_changing (cfg : Cfg) (q : FlashReq) (m : FlashArray)
    (h : q.op.changesArray = false) : m.after cfg q = m := by
  cases m with
  | drawn changes => simp [FlashArray.after, h]
  | reference cells =>
    cases hop : q.op <;> simp_all [FlashArray.after, referenceAfter, FlashOp.changesArray]

/-- A performed request keeps the canonical form. -/
theorem FlashArray.after_wf (cfg : Cfg) (q : FlashReq) {m : FlashArray} (h : m.wf) : (m.after cfg q).wf := by
  cases m with
  | drawn changes => trivial
  | reference cells =>
    simp only [FlashArray.after, FlashArray.wf, referenceAfter]
    cases q.op <;> simp only
    case writeByte => exact Memory.write_wf h _ _
    case eraseSector => exact Memory.eraseRange_wf h _ _
    case eraseChip => exact ⟨List.Pairwise.nil, by simp⟩
    all_goals exact h

/-- An interrupted request keeps the canonical form. -/
theorem Flash.interrupt_wf (cfg : Cfg) (q : FlashReq) {f : Flash} (h : f.array.wf) : (f.interrupt cfg q).array.wf := by
  obtain ⟨array, idMode, draws⟩ := f
  cases array with
  | drawn changes => trivial
  | reference cells => exact Memory.writeAll_wf h _ _

/-- An answer is a byte exactly for the read-type operations (R41). -/
theorem Flash.answer_isSome (cfg : Cfg) (q : FlashReq) (f : Flash) : (f.answer cfg q).isSome = q.op.isRead := by
  obtain ⟨array, idMode, draws⟩ := f
  cases hop : q.op <;> cases array <;> cases idMode <;> simp [Flash.answer, hop, FlashOp.isRead]

/-- A byte read outside ID mode leaves the driver exactly as it was (R49). -/
theorem Flash.after_readByte (cfg : Cfg) (q : FlashReq) (f : Flash) (hop : q.op = .readByte) (hid : f.idMode = false) :
    f.after cfg q = f := by
  obtain ⟨array, idMode, draws⟩ := f
  have hc : q.op.changesArray = false := by rw [hop]; rfl
  simp only at hid
  simp [Flash.after, FlashArray.after_of_not_changing cfg q array hc, idModeAfter, Flash.answerIsFree, hop, hid]

end Sys2Proof.Machine
end

