-- ==== Sys2Proof/Laws/PerInstr.lean ====
section
/-! SUPPORT. Statements for every instruction, one lemma per constructor: the packet of a well-formed command carries its opcode
and its payload under a header that the firmware's parser accepts (R62, R66, R91). -/

namespace Sys2Proof.Laws.ParsedHeader

/-- The header of the command's packet parses to its opcode and payload. -/
def Statement (i : Instr) : Prop :=
  i.wf → parseHeader (encode i) = some (i.opcode, i.payload)

theorem ping : Statement .ping := fun _ =>
  parseHeader_buildPacket _ _ (by simp [Instr.payload])

theorem identify : Statement .identify := fun _ =>
  parseHeader_buildPacket _ _ (by simp [Instr.payload])

theorem read (addr : Addr) (len : Byte) : Statement (.read addr len) := fun _ =>
  parseHeader_buildPacket _ _ (by simp [Instr.payload])

theorem write (addr : Addr) (data : List Byte) : Statement (.write addr data) := fun h =>
  parseHeader_buildPacket _ _ (by
    have := h.2
    simp only [Instr.payload, List.length_append, le32_length]
    omega)

theorem crc (start stop : Addr) : Statement (.crc start stop) := fun _ =>
  parseHeader_buildPacket _ _ (by simp [Instr.payload])

theorem erase (start stop : Addr) : Statement (.erase start stop) := fun _ =>
  parseHeader_buildPacket _ _ (by simp [Instr.payload])

theorem erasechip : Statement .erasechip := fun _ =>
  parseHeader_buildPacket _ _ (by simp [Instr.payload])

end Sys2Proof.Laws.ParsedHeader
end

