-- ==== Sys2Proof/Laws/State.lean ====
section
/-! SUPPORT. One lemma per field per update of State, each true by `rfl`. -/

namespace Sys2Proof.Machine

@[simp] theorem issue_cfg (q : FlashReq) (p : Progress) (s : State) : (issue q p s).cfg = s.cfg := rfl
@[simp] theorem issue_phase (q : FlashReq) (p : Progress) (s : State) : (issue q p s).phase = s.phase := rfl
@[simp] theorem issue_dec (q : FlashReq) (p : Progress) (s : State) : (issue q p s).dec = s.dec := rfl
@[simp] theorem issue_cmd (q : FlashReq) (p : Progress) (s : State) : (issue q p s).cmd = s.cmd := rfl
@[simp] theorem issue_exec (q : FlashReq) (p : Progress) (s : State) : (issue q p s).exec = some ⟨p.issued + 1, p.reads⟩ := rfl
@[simp] theorem issue_txQ (q : FlashReq) (p : Progress) (s : State) : (issue q p s).txQ = s.txQ := rfl
@[simp] theorem issue_flashReq (q : FlashReq) (p : Progress) (s : State) : (issue q p s).flashReq = some q := rfl
@[simp] theorem issue_flash (q : FlashReq) (p : Progress) (s : State) : (issue q p s).flash = s.flash := rfl
@[simp] theorem issue_rx (q : FlashReq) (p : Progress) (s : State) : (issue q p s).rx = s.rx := rfl
@[simp] theorem issue_sched (q : FlashReq) (p : Progress) (s : State) : (issue q p s).sched = s.sched := rfl
@[simp] theorem issue_trace (q : FlashReq) (p : Progress) (s : State) : (issue q p s).trace = s.trace ++ [.flashReq q] := rfl

@[simp] theorem respond_cfg (q : FlashReq) (p : Progress) (s : State) : (respond q p s).cfg = s.cfg := rfl
@[simp] theorem respond_phase (q : FlashReq) (p : Progress) (s : State) : (respond q p s).phase = s.phase := rfl
@[simp] theorem respond_dec (q : FlashReq) (p : Progress) (s : State) : (respond q p s).dec = s.dec := rfl
@[simp] theorem respond_cmd (q : FlashReq) (p : Progress) (s : State) : (respond q p s).cmd = s.cmd := rfl
@[simp] theorem respond_exec (q : FlashReq) (p : Progress) (s : State) : (respond q p s).exec = some ⟨p.issued, p.reads ++ (s.flash.answer s.cfg q).toList⟩ := rfl
@[simp] theorem respond_txQ (q : FlashReq) (p : Progress) (s : State) : (respond q p s).txQ = s.txQ := rfl
@[simp] theorem respond_flashReq (q : FlashReq) (p : Progress) (s : State) : (respond q p s).flashReq = none := rfl
@[simp] theorem respond_flash (q : FlashReq) (p : Progress) (s : State) : (respond q p s).flash = s.flash.after s.cfg q := rfl
@[simp] theorem respond_rx (q : FlashReq) (p : Progress) (s : State) : (respond q p s).rx = s.rx := rfl
@[simp] theorem respond_sched (q : FlashReq) (p : Progress) (s : State) : (respond q p s).sched = s.sched := rfl
@[simp] theorem respond_trace (q : FlashReq) (p : Progress) (s : State) : (respond q p s).trace = s.trace ++ [.flashResp (s.flash.answer s.cfg q)] := rfl

@[simp] theorem finish_cfg (h : Handler) (p : Progress) (s : State) : (finish h p s).cfg = s.cfg := rfl
@[simp] theorem finish_phase (h : Handler) (p : Progress) (s : State) : (finish h p s).phase = .send := rfl
@[simp] theorem finish_dec (h : Handler) (p : Progress) (s : State) : (finish h p s).dec = s.dec := rfl
@[simp] theorem finish_cmd (h : Handler) (p : Progress) (s : State) : (finish h p s).cmd = none := rfl
@[simp] theorem finish_exec (h : Handler) (p : Progress) (s : State) : (finish h p s).exec = none := rfl
@[simp] theorem finish_txQ (h : Handler) (p : Progress) (s : State) : (finish h p s).txQ = frameEncode s.cfg (h.reply p.reads) := rfl
@[simp] theorem finish_flashReq (h : Handler) (p : Progress) (s : State) : (finish h p s).flashReq = s.flashReq := rfl
@[simp] theorem finish_flash (h : Handler) (p : Progress) (s : State) : (finish h p s).flash = s.flash := rfl
@[simp] theorem finish_rx (h : Handler) (p : Progress) (s : State) : (finish h p s).rx = s.rx := rfl
@[simp] theorem finish_sched (h : Handler) (p : Progress) (s : State) : (finish h p s).sched = s.sched := rfl
@[simp] theorem finish_trace (h : Handler) (p : Progress) (s : State) : (finish h p s).trace = s.trace := rfl

@[simp] theorem resetEvent_cfg (s : State) : (resetEvent s).cfg = s.cfg := rfl
@[simp] theorem resetEvent_phase (s : State) : (resetEvent s).phase = .recv := rfl
@[simp] theorem resetEvent_dec (s : State) : (resetEvent s).dec = Decoder.fresh := rfl
@[simp] theorem resetEvent_cmd (s : State) : (resetEvent s).cmd = none := rfl
@[simp] theorem resetEvent_exec (s : State) : (resetEvent s).exec = none := rfl
@[simp] theorem resetEvent_txQ (s : State) : (resetEvent s).txQ = [] := rfl
@[simp] theorem resetEvent_flashReq (s : State) : (resetEvent s).flashReq = none := rfl
@[simp] theorem resetEvent_flash (s : State) : (resetEvent s).flash = flashAtReset s := rfl
@[simp] theorem resetEvent_rx (s : State) : (resetEvent s).rx = s.rx := rfl
@[simp] theorem resetEvent_sched (s : State) : (resetEvent s).sched = s.sched := rfl
@[simp] theorem resetEvent_trace (s : State) : (resetEvent s).trace = s.trace := rfl

@[simp] theorem atHandover_cfg (f : List Byte) (s : State) : (atHandover f s).cfg = s.cfg := rfl
@[simp] theorem atHandover_phase (f : List Byte) (s : State) : (atHandover f s).phase = .exec := rfl
@[simp] theorem atHandover_dec (f : List Byte) (s : State) : (atHandover f s).dec = s.dec := rfl
@[simp] theorem atHandover_cmd (f : List Byte) (s : State) : (atHandover f s).cmd = some f := rfl
@[simp] theorem atHandover_exec (f : List Byte) (s : State) : (atHandover f s).exec = some Progress.start := rfl
@[simp] theorem atHandover_txQ (f : List Byte) (s : State) : (atHandover f s).txQ = s.txQ := rfl
@[simp] theorem atHandover_flashReq (f : List Byte) (s : State) : (atHandover f s).flashReq = none := rfl
@[simp] theorem atHandover_flash (f : List Byte) (s : State) : (atHandover f s).flash = s.flash := rfl
@[simp] theorem atHandover_rx (f : List Byte) (s : State) : (atHandover f s).rx = s.rx := rfl
@[simp] theorem atHandover_sched (f : List Byte) (s : State) : (atHandover f s).sched = [] := rfl
@[simp] theorem atHandover_trace (f : List Byte) (s : State) : (atHandover f s).trace = s.trace := rfl

@[simp] theorem afterExec_cfg (f : List Byte) (s : State) : (afterExec f s).cfg = s.cfg := rfl
@[simp] theorem afterExec_phase (f : List Byte) (s : State) : (afterExec f s).phase = .send := rfl
@[simp] theorem afterExec_dec (f : List Byte) (s : State) : (afterExec f s).dec = s.dec := rfl
@[simp] theorem afterExec_cmd (f : List Byte) (s : State) : (afterExec f s).cmd = none := rfl
@[simp] theorem afterExec_exec (f : List Byte) (s : State) : (afterExec f s).exec = none := rfl
@[simp] theorem afterExec_txQ (f : List Byte) (s : State) : (afterExec f s).txQ = frameEncode s.cfg (replyPacket s.cfg f s.flash) := rfl
@[simp] theorem afterExec_flashReq (f : List Byte) (s : State) : (afterExec f s).flashReq = s.flashReq := rfl
@[simp] theorem afterExec_flash (f : List Byte) (s : State) : (afterExec f s).flash = flashAfterAll s.cfg (dispatch s.cfg f).ops s.flash := rfl
@[simp] theorem afterExec_rx (f : List Byte) (s : State) : (afterExec f s).rx = s.rx := rfl
@[simp] theorem afterExec_sched (f : List Byte) (s : State) : (afterExec f s).sched = s.sched := rfl
@[simp] theorem afterExec_trace (f : List Byte) (s : State) : (afterExec f s).trace = s.trace ++ flashEventsOf s.cfg (dispatch s.cfg f).ops s.flash := rfl

@[simp] theorem State.offer_cfg (s : State) (bytes : List Byte) : (s.offer bytes).cfg = s.cfg := rfl
@[simp] theorem State.offer_phase (s : State) (bytes : List Byte) : (s.offer bytes).phase = s.phase := rfl
@[simp] theorem State.offer_dec (s : State) (bytes : List Byte) : (s.offer bytes).dec = s.dec := rfl
@[simp] theorem State.offer_cmd (s : State) (bytes : List Byte) : (s.offer bytes).cmd = s.cmd := rfl
@[simp] theorem State.offer_exec (s : State) (bytes : List Byte) : (s.offer bytes).exec = s.exec := rfl
@[simp] theorem State.offer_txQ (s : State) (bytes : List Byte) : (s.offer bytes).txQ = s.txQ := rfl
@[simp] theorem State.offer_flashReq (s : State) (bytes : List Byte) : (s.offer bytes).flashReq = s.flashReq := rfl
@[simp] theorem State.offer_flash (s : State) (bytes : List Byte) : (s.offer bytes).flash = s.flash := rfl
@[simp] theorem State.offer_rx (s : State) (bytes : List Byte) : (s.offer bytes).rx = s.rx ++ bytes := rfl
@[simp] theorem State.offer_sched (s : State) (bytes : List Byte) : (s.offer bytes).sched = s.sched := rfl
@[simp] theorem State.offer_trace (s : State) (bytes : List Byte) : (s.offer bytes).trace = s.trace := rfl

@[simp] theorem State.resetWith_cfg (cfg : Cfg) (array : FlashArray) : (State.resetWith cfg array).cfg = cfg := rfl
@[simp] theorem State.resetWith_phase (cfg : Cfg) (array : FlashArray) : (State.resetWith cfg array).phase = .recv := rfl
@[simp] theorem State.resetWith_dec (cfg : Cfg) (array : FlashArray) : (State.resetWith cfg array).dec = Decoder.fresh := rfl
@[simp] theorem State.resetWith_cmd (cfg : Cfg) (array : FlashArray) : (State.resetWith cfg array).cmd = none := rfl
@[simp] theorem State.resetWith_exec (cfg : Cfg) (array : FlashArray) : (State.resetWith cfg array).exec = none := rfl
@[simp] theorem State.resetWith_txQ (cfg : Cfg) (array : FlashArray) : (State.resetWith cfg array).txQ = [] := rfl
@[simp] theorem State.resetWith_flashReq (cfg : Cfg) (array : FlashArray) : (State.resetWith cfg array).flashReq = none := rfl
@[simp] theorem State.resetWith_flash (cfg : Cfg) (array : FlashArray) : (State.resetWith cfg array).flash = ⟨array, false, 0⟩ := rfl
@[simp] theorem State.resetWith_rx (cfg : Cfg) (array : FlashArray) : (State.resetWith cfg array).rx = [] := rfl
@[simp] theorem State.resetWith_sched (cfg : Cfg) (array : FlashArray) : (State.resetWith cfg array).sched = [] := rfl
@[simp] theorem State.resetWith_trace (cfg : Cfg) (array : FlashArray) : (State.resetWith cfg array).trace = [] := rfl

/-- The reset state's flash array is in its canonical form, and so is the reference array with every cell erased. -/
theorem State.reset_array_wf : State.reset.flash.array.wf ∧ (FlashArray.reference []).wf :=
  ⟨trivial, List.Pairwise.nil, fun _ h => nomatch h⟩

end Sys2Proof.Machine
end

