-- ==== Sys2Proof/Laws/Step.lean ====
section
/-! SUPPORT. What each shared operation can do, said once: the steps of a handler, the three phases, one turn of the machine, and
the decoder. -/

namespace Sys2Proof.Machine

/-- A command's meaning is its handler run by R107. -/
theorem exec_eq_runHandler (i : Instr) (s : State) : exec i s = runHandler (handlerOf s.cfg i) s := by
  cases i <;> rfl

/-- Phase `EXEC` runs the handler that `Dispatch` gives (R107, R109). -/
theorem execStep_eq_runHandler {s : State} {f : List Byte} (h : s.cmd = some f) :
    execStep s = runHandler (dispatch s.cfg f) s := by
  simp only [execStep, h, dispatch]
  cases decodeCommand f with
  | ok i => exact exec_eq_runHandler i s
  | error e => rfl

/-- Everything one step of a handler can do when it answers a next state (R107): the flash driver responds, the block issues
the next transaction, or the block takes the final step. -/
theorem runHandler_cases {h : Handler} {s t : State} (hn : runHandler h s = .next t) :
    ∃ p, s.exec = some p ∧
      ((∃ q, s.flashReq = some q ∧ q.legal s.cfg = true ∧ t = respond q p s) ∨
       (∃ q, s.flashReq = none ∧ h.ops[p.issued]? = some q ∧ t = issue q p s) ∨
       (s.flashReq = none ∧ h.ops[p.issued]? = none ∧ t = finish h p s)) := by
  unfold runHandler at hn
  split at hn
  · cases hn
  · rename_i p hp
    refine ⟨p, hp, ?_⟩
    split at hn
    · rename_i q hq
      split at hn
      · cases hn
        exact .inl ⟨q, hq, ‹_›, rfl⟩
      · cases hn
    · rename_i hq
      split at hn
      · rename_i q hops
        cases hn
        exact .inr (.inl ⟨q, hq, hops, rfl⟩)
      · rename_i hops
        cases hn
        exact .inr (.inr ⟨hq, hops, rfl⟩)

/-- The step of a handler while the flash driver owes a response. -/
theorem runHandler_respond {h : Handler} {s : State} {p : Progress} {q : FlashReq} (hp : s.exec = some p)
    (hq : s.flashReq = some q) (hl : q.legal s.cfg = true) : runHandler h s = .next (respond q p s) := by
  simp [runHandler, hp, hq, hl]

/-- The step of a handler with a transaction left. -/
theorem runHandler_issue {h : Handler} {s : State} {p : Progress} {q : FlashReq} (hp : s.exec = some p)
    (hq : s.flashReq = none) (ho : h.ops[p.issued]? = some q) : runHandler h s = .next (issue q p s) := by
  simp [runHandler, hp, hq, ho]

/-- The final step of a handler. -/
theorem runHandler_finish {h : Handler} {s : State} {p : Progress} (hp : s.exec = some p)
    (hq : s.flashReq = none) (ho : h.ops[p.issued]? = none) : runHandler h s = .next (finish h p s) := by
  simp [runHandler, hp, hq, ho]

/-- A failed check leaves nothing of a handler but its status (R103, R125). -/
theorem Handler.guarded_cases (check : StatusCode) (h : Handler) :
    (check = .none ∧ h.guarded check = h) ∨ (check ≠ .none ∧ h.guarded check = Handler.fixed h.replyOp check) := by
  cases check <;> simp [Handler.guarded]

/-- What one byte does in `RECV` (R106). -/
theorem recvStep_cases {s t : State} (hn : recvStep s = .next t) :
    (s.rx = [] ∧ t = s) ∨
    (∃ b rest o, s.rx = b :: rest ∧ decStep s.cfg s.dec b = some o ∧ t = received b o { s with rx := rest }) := by
  unfold recvStep at hn
  split at hn
  · rename_i hr
    cases hn
    exact .inl ⟨hr, rfl⟩
  · rename_i b rest hr
    split at hn
    · cases hn
    · rename_i o ho
      cases hn
      exact .inr ⟨b, rest, o, hr, ho, rfl⟩

/-- What a step does in `EXEC` (R107). -/
theorem execStep_cases {s t : State} (hn : execStep s = .next t) :
    ∃ f, s.cmd = some f ∧ runHandler (dispatch s.cfg f) s = .next t := by
  cases hc : s.cmd with
  | none => simp [execStep, hc] at hn
  | some f => exact ⟨f, rfl, by rw [← execStep_eq_runHandler hc]; exact hn⟩

/-- What a step does in `SEND` (R108). -/
theorem sendStep_cases {s t : State} (hn : sendStep s = .next t) :
    (s.txQ = [] ∧ t = s) ∨
    (∃ b rest, s.txQ = b :: rest ∧
      t = { s with
        txQ := rest
        phase := if rest = [] then .recv else .send
        trace := s.trace ++ [.txByte b] }) := by
  unfold sendStep at hn
  split at hn
  · rename_i hr
    cases hn
    exact .inl ⟨hr, rfl⟩
  · rename_i b rest hr
    cases hn
    exact .inr ⟨b, rest, hr, rfl⟩

/-- Everything a step can do when it answers a next state: the configuration is legal, and the turn is the block's or an agent's
(from the state `u` whose schedule is used up by one), a wait, or a `Reset`. -/
theorem step_cases {s t : State} (hn : step s = .next t) :
    s.cfg.legal = true ∧ ∃ turns, ∃ u, u = { s with sched := turns } ∧
      (t = u ∨ t = resetEvent u ∨
       (s.phase = .recv ∧ recvStep u = .next t) ∨
       (s.phase = .exec ∧ execStep u = .next t) ∨
       (s.phase = .send ∧ sendStep u = .next t)) := by
  unfold step turn at hn
  split at hn
  · rename_i hl
    refine ⟨hl, ?_⟩
    have key : ∀ turns, phaseStep { s with sched := turns } = .next t →
        ∃ turns, ∃ u, u = { s with sched := turns } ∧
          (t = u ∨ t = resetEvent u ∨
           (s.phase = .recv ∧ recvStep u = .next t) ∨
           (s.phase = .exec ∧ execStep u = .next t) ∨
           (s.phase = .send ∧ sendStep u = .next t)) := by
      intro turns hp
      refine ⟨turns, _, rfl, ?_⟩
      unfold phaseStep at hp
      split at hp <;> simp_all
    split at hn
    · rename_i hs
      refine key [] ?_
      rw [← hs]
      exact hn
    · exact key _ hn
    · rename_i rest _
      cases hn
      exact ⟨rest, _, rfl, .inl rfl⟩
    · rename_i rest _
      cases hn
      exact ⟨rest, _, rfl, .inr (.inl rfl)⟩
  · cases hn

@[simp] theorem runSteps_zero (s : State) : runSteps 0 s = .next s := rfl

/-- A run begins with one step. -/
theorem runSteps_succ {k : Nat} {s t : State} (h : step s = .next t) : runSteps (k + 1) s = runSteps k t := by
  simp only [runSteps, h]

/-- A run in two parts. -/
theorem runSteps_add {a b : Nat} {s t : State} (h : runSteps a s = .next t) :
    runSteps (a + b) s = runSteps b t := by
  induction a generalizing s with
  | zero =>
    cases h
    rw [Nat.zero_add]
  | succ a ih =>
    rw [Nat.add_right_comm]
    simp only [runSteps] at h ⊢
    split at h
    · rename_i hs
      exact ih h
    · cases h
    · cases h

/-- The host's run begins with one step, for any machine. -/
theorem coreRun_next (M : Host.Core) (k : Nat) {s t : M.State} (h : M.step s = .next t) :
    Host.Core.run M (k + 1) s = Host.Core.run M k t := by
  simp only [Host.Core.run, h]

/-- The host's run stops at a fault. -/
theorem coreRun_fault (M : Host.Core) (k : Nat) {s : M.State} {r : M.Fault} (h : M.step s = .fault r) :
    Host.Core.run M (k + 1) s = .fault r := by
  simp only [Host.Core.run, h]

/-- The host's run stops at a refusal. -/
theorem coreRun_refused (M : Host.Core) (k : Nat) {s : M.State} {r : M.Refusal} (h : M.step s = .refused r) :
    Host.Core.run M (k + 1) s = .refused r := by
  simp only [Host.Core.run, h]

/-- `runSteps` is the host's own run of this machine. -/
theorem runSteps_eq_coreRun : ∀ (k : Nat) (s : State), runSteps k s = Host.Core.run Sys2Proof.core k s
  | 0, _ => rfl
  | k + 1, s => by
    cases hs : step s with
    | next t =>
      rw [runSteps_succ hs]
      exact (runSteps_eq_coreRun k t).trans (coreRun_next Sys2Proof.core k hs).symm
    | fault r =>
      simp only [runSteps, hs]
      exact (coreRun_fault Sys2Proof.core k hs).symm
    | refused r =>
      simp only [runSteps, hs]
      exact (coreRun_refused Sys2Proof.core k hs).symm

theorem sentBytes_append (a b : List Event) : sentBytes (a ++ b) = sentBytes a ++ sentBytes b :=
  List.filterMap_append

/-- Receiving sends nothing. -/
theorem sentBytes_map_rxByte (bs : List Byte) : sentBytes (bs.map Event.rxByte) = [] := by
  simp [sentBytes, List.filterMap_map, Function.comp_def, Event.sentByte]

/-- Sending bytes sends exactly them. -/
theorem sentBytes_map_txByte (bs : List Byte) : sentBytes (bs.map Event.txByte) = bs := by
  simp [sentBytes, List.filterMap_map, Function.comp_def, Event.sentByte]

/-- The flash transactions of a handler send nothing. -/
theorem sentBytes_flashEventsOf (cfg : Cfg) (ops : List FlashReq) (f : Flash) :
    sentBytes (flashEventsOf cfg ops f) = [] := by
  induction ops generalizing f with
  | nil => rfl
  | cons q ops ih => simpa [sentBytes, flashEventsOf, Event.sentByte] using ih (f.after cfg q)

/-- A command that counts as answered has sent something (R151): an abandoned one has not. -/
theorem CommandAnswered.sends {s t : State} {c : List Byte} (h : CommandAnswered s c t) :
    sentBytes t.trace ≠ sentBytes s.trace := by
  obtain ⟨op, st, body, hr⟩ := h.replied
  rw [hr]
  simp [frameEncode]

/-- What a decoder step gives, by the buffer it leaves (R75 to R82): the decoder is in `Idle` or `InFrame` with an empty buffer,
has kept its buffer, or has one byte more in a buffer that had room. -/
theorem decStep_cases {cfg : Cfg} {d : Decoder} {b : Byte} {o : DecOut} (h : decStep cfg d b = some o) :
    o.dec.st ≠ .unused ∧
    (o.dec.buf = [] ∨ (o.dec = d ∧ d.st = .idle) ∨ (o.dec.buf = d.buf ∧ o.dec.st = .escaped) ∨
      ∃ v, o.dec = ⟨.inFrame, d.buf ++ [v]⟩ ∧ d.buf.length < cfg.maxPacket) ∧
    (o.emit ≠ none → o.dec = Decoder.fresh ∧ o.err = none ∧ o.emit = some d.buf) ∧
    (o.err ≠ none → o.emit = none ∧ o.dec.buf = []) := by
  have hap : ∀ (buf : List Byte) (v : Byte), buf = d.buf →
      (appendByte cfg buf v).dec.st ≠ .unused ∧
      ((appendByte cfg buf v).dec.buf = [] ∨
        ∃ w, (appendByte cfg buf v).dec = ⟨.inFrame, d.buf ++ [w]⟩ ∧ d.buf.length < cfg.maxPacket) ∧
      (appendByte cfg buf v).emit = none ∧
      ((appendByte cfg buf v).err ≠ none → (appendByte cfg buf v).dec.buf = []) := by
    rintro buf v rfl
    unfold appendByte
    split
    · simp [Decoder.fresh]
    · rename_i hlt
      refine ⟨by simp [DecOut.quiet], .inr ⟨v, rfl, by omega⟩, rfl, by simp [DecOut.quiet]⟩
  unfold decStep at h
  split at h
  · rename_i hst
    cases h
    unfold stepIdle
    split
    · simp [DecOut.quiet]
    · simp [DecOut.quiet, hst]
  · cases h
    unfold stepInFrame
    split
    · unfold closeFrame
      split
      · simp [DecOut.quiet]
      · simp [Decoder.fresh]
    · split
      · simp [DecOut.quiet]
      · obtain ⟨h1, h2, h3, h4⟩ := hap d.buf b rfl
        exact ⟨h1, h2.imp_right fun h => .inr (.inr h), fun h => absurd h3 h, fun h => ⟨h3, h4 h⟩⟩
  · cases h
    unfold stepEscaped
    split
    · simp
    · obtain ⟨h1, h2, h3, h4⟩ := hap d.buf (b ^^^ cfg.escXor) rfl
      exact ⟨h1, h2.imp_right fun h => .inr (.inr h), fun h => absurd h3 h, fun h => ⟨h3, h4 h⟩⟩
  · cases h

/-- The empty frame reaches the dispatcher only under `Emit` (R112). -/
theorem decStep_emits_nonempty {cfg : Cfg} {d : Decoder} {b : Byte} {o : DecOut} (h : decStep cfg d b = some o)
    (hp : cfg.emptyFrame = .ignore) : o.emit ≠ some [] := by
  have hap : ∀ (buf : List Byte) (v : Byte), (appendByte cfg buf v).emit = none := by
    intro buf v
    unfold appendByte
    split <;> rfl
  unfold decStep at h
  split at h <;> cases h
  · unfold stepIdle
    split <;> simp [DecOut.quiet]
  · unfold stepInFrame closeFrame
    split
    · split
      · simp [DecOut.quiet]
      · rename_i hne
        simp only [ne_eq, Option.some.injEq]
        exact fun e => hne ⟨e, hp⟩
    · split
      · simp [DecOut.quiet]
      · simp [hap]
  · unfold stepEscaped
    split
    · simp
    · simp [hap]

end Sys2Proof.Machine
end

