-- ==== Sys2Proof/Tests/Slice0.lean ====
section
/-! SUPPORT. Tests, each expected value from spec/ (95_test_vectors.md and the examples of the rules), and for every obligation with
hypotheses a witness: a concrete state and operands that meet them together, each clause at a boundary of its range. -/

namespace Sys2Proof.Tests

open Sys2Proof.Machine

/-! ### WellFormed: an ill-formed term for each check, refused -/

theorem test_write_without_data_is_ill_formed : ¬ (Instr.write 0 []).wf := by decide

theorem test_write_beyond_total_length_is_ill_formed : ¬ (Instr.write 0 (List.replicate 65529 0)).wf :=
  fun h => absurd h.2 (by rw [List.length_replicate]; omega)

theorem test_longest_write_is_well_formed : (Instr.write 0 (List.replicate 65528 0)).wf :=
  ⟨by rw [List.length_replicate]; omega, by rw [List.length_replicate]; omega⟩

theorem test_other_commands_are_well_formed :
    Instr.ping.wf ∧ Instr.identify.wf ∧ (Instr.read 0 0).wf ∧ (Instr.crc 1 0).wf ∧ (Instr.erase 1 1).wf ∧
      Instr.erasechip.wf := by decide

/-! ### Decoding: a packet of each constructor, written out bit by bit from 30_encoding.md R66 -/

theorem test_decode_ping : decodeCommand [0b00000000, 0b00000011, 0b00000000] = .ok .ping := by decide

theorem test_decode_identify : decodeCommand [0b00000001, 0b00000011, 0b00000000] = .ok .identify := by decide

/-- R92's example: `[F8 7F 00 00 40]` gives `addr = 0x7FF8`, `len = 64`. -/
theorem test_decode_read :
    decodeCommand [0b00000010, 0b00001000, 0b00000000,
      0b11111000, 0b01111111, 0b00000000, 0b00000000, 0b01000000] = .ok (.read 0x7FF8 64) := by decide

theorem test_decode_write :
    decodeCommand [0b00000011, 0b00001001, 0b00000000,
      0b11111111, 0b01111111, 0b00000000, 0b00000000, 0b00010010, 0b00110100] = .ok (.write 0x7FFF [0x12, 0x34]) := by
  decide

/-- The start address comes before the end address, each with its least significant byte first (R66). -/
theorem test_decode_crc :
    decodeCommand [0b00000100, 0b00001011, 0b00000000,
      0b00000001, 0b00000010, 0b00000100, 0b00001000, 0b00010000, 0b00100000, 0b01000000, 0b10000000] =
      .ok (.crc 0x08040201 0x80402010) := by decide

theorem test_decode_erase :
    decodeCommand [0b00000101, 0b00001011, 0b00000000,
      0b00000000, 0b00010000, 0b00000000, 0b00000000, 0b00000000, 0b01000000, 0b00000000, 0b00000000] =
      .ok (.erase 4096 16384) := by decide

theorem test_decode_erasechip : decodeCommand [0b00000110, 0b00000011, 0b00000000] = .ok .erasechip := by decide

/-- The frames of 95_test_vectors.md 2.6 that carry no command, each with its reason. -/
theorem test_rejected_frames :
    decodeCommand [] = .error .emptyFrame ∧
    decodeCommand [0x00] = .error .badHeader ∧
    decodeCommand [0x02, 0x08] = .error .badHeader ∧
    decodeCommand [0x00, 0x04, 0x00] = .error .badHeader ∧
    decodeCommand [0x02, 0x08, 0x01, 0x00, 0x00, 0x00, 0x00, 0x0A] = .error .badHeader ∧
    decodeCommand [0x07, 0x03, 0x00] = .error .unknownOpcode ∧
    decodeCommand [0xFF, 0x03, 0x00] = .error .unknownOpcode := by decide

theorem test_rejected_payloads :
    decodeCommand [0x00, 0x04, 0x00, 0x00] = .error .badPayloadLength ∧
    decodeCommand [0x01, 0x04, 0x00, 0x00] = .error .badPayloadLength ∧
    decodeCommand [0x02, 0x07, 0x00, 0x00, 0x00, 0x00, 0x00] = .error .badPayloadLength ∧
    decodeCommand [0x02, 0x09, 0x00, 0x00, 0x00, 0x00, 0x00, 0x01, 0x00] = .error .badPayloadLength ∧
    decodeCommand [0x03, 0x07, 0x00, 0x00, 0x00, 0x00, 0x00] = .error .badPayloadLength ∧
    decodeCommand [0x04, 0x0A, 0x00, 0x00, 0x00, 0x00, 0x00, 0x00, 0x00, 0x00] = .error .badPayloadLength ∧
    decodeCommand [0x05, 0x0C, 0x00, 0x00, 0x00, 0x00, 0x00, 0x00, 0x00, 0x00, 0x00, 0x00] = .error .badPayloadLength ∧
    decodeCommand [0x06, 0x04, 0x00, 0x00] = .error .badPayloadLength := by decide

/-- The rows of opcode_table.json: one opcode byte each, 0 to 6; 7 is no command. -/
theorem test_table_words :
    decodeTableWord 8 0 = some .ping ∧ decodeTableWord 8 1 = some .identify ∧
    decodeTableWord 8 2 = some (.read 0 0) ∧ decodeTableWord 8 3 = some (.write 0 [0]) ∧
    decodeTableWord 8 4 = some (.crc 0 0) ∧ decodeTableWord 8 5 = some (.erase 0 0) ∧
    decodeTableWord 8 6 = some .erasechip ∧ decodeTableWord 8 7 = none := by decide

/-- A whole packet as one number, byte 0 lowest: `02 08 00 F8 7F 00 00 40`. -/
theorem test_whole_packet_word : decodeTableWord 64 0x4000007FF8000802 = some (.read 0x7FF8 64) := by decide

theorem test_step_runs_a_placed_word :
    step (State.reset.withFetchWord 8 0) = exec .ping (State.reset.withFetchWord 8 0) := by rfl

/-! ### Frame codec: 95_test_vectors.md 2.1 to 2.3 -/

theorem test_vectors_are_legal : Cfg.vectors.legal = true := by decide

theorem test_vector_sizes : Cfg.vectors.maxPacket = 71 ∧ Cfg.vectors.maxReply = 68 := by decide

/-- The encodings of R21, R22, R26 and R41. -/
theorem test_encodings :
    [EmptyFramePolicy.ignore, .emit].map EmptyFramePolicy.code = [0, 1] ∧
    [DecState.idle, .inFrame, .escaped].map DecState.code = [0, 1, 2] ∧
    [Phase.recv, .exec, .send].map Phase.code = [0, 1, 2] ∧
    [FlashOp.readByte, .writeByte, .eraseSector, .eraseChip, .enterId, .leaveId, .readMfrId, .readDevId].map FlashOp.code =
      [0, 1, 2, 3, 4, 5, 6, 7] := by decide

/-- T1, T2, T3, T4, T5. -/
theorem test_decoder_idle_and_closing :
    decStep Cfg.vectors ⟨.idle, []⟩ 0x7E = some ⟨⟨.inFrame, []⟩, none, none⟩ ∧
    decStep Cfg.vectors ⟨.idle, []⟩ 0x41 = some ⟨⟨.idle, []⟩, none, none⟩ ∧
    decStep Cfg.vectors ⟨.idle, []⟩ 0x7D = some ⟨⟨.idle, []⟩, none, none⟩ ∧
    decStep Cfg.vectors ⟨.inFrame, [0x00, 0x03, 0x00]⟩ 0x7E = some ⟨⟨.idle, []⟩, some [0x00, 0x03, 0x00], none⟩ ∧
    decStep Cfg.vectors ⟨.inFrame, []⟩ 0x7E = some ⟨⟨.inFrame, []⟩, none, none⟩ := by decide

/-- T6. -/
theorem test_decoder_emits_the_empty_frame :
    decStep { Cfg.vectors with emptyFrame := .emit } ⟨.inFrame, []⟩ 0x7E = some ⟨⟨.idle, []⟩, some [], none⟩ := by
  decide

/-- T7, T8, T9, T10, T12, T13. -/
theorem test_decoder_escapes :
    decStep Cfg.vectors ⟨.inFrame, [0x00, 0x03]⟩ 0x7D = some ⟨⟨.escaped, [0x00, 0x03]⟩, none, none⟩ ∧
    decStep Cfg.vectors ⟨.inFrame, [0x00, 0x03]⟩ 0x00 = some ⟨⟨.inFrame, [0x00, 0x03, 0x00]⟩, none, none⟩ ∧
    decStep Cfg.vectors ⟨.escaped, [1, 2, 3, 4, 5]⟩ 0x7E = some ⟨⟨.inFrame, []⟩, none, some .escapedMarker⟩ ∧
    decStep Cfg.vectors ⟨.escaped, [0x04]⟩ 0x5E = some ⟨⟨.inFrame, [0x04, 0x7E]⟩, none, none⟩ ∧
    decStep Cfg.vectors ⟨.escaped, [0x04]⟩ 0x7D = some ⟨⟨.inFrame, [0x04, 0x5D]⟩, none, none⟩ ∧
    decStep Cfg.vectors ⟨.escaped, [0x04]⟩ 0x41 = some ⟨⟨.inFrame, [0x04, 0x61]⟩, none, none⟩ := by decide

/-- T14, T16, T17: the oversize boundary. -/
theorem test_decoder_oversize :
    decStep Cfg.vectors ⟨.inFrame, List.replicate 71 0⟩ 0x00 = some ⟨⟨.idle, []⟩, none, some .oversize⟩ ∧
    decStep Cfg.vectors ⟨.inFrame, List.replicate 71 0⟩ 0x7D = some ⟨⟨.escaped, List.replicate 71 0⟩, none, none⟩ ∧
    decStep Cfg.vectors ⟨.escaped, List.replicate 71 0⟩ 0x5E = some ⟨⟨.idle, []⟩, none, some .oversize⟩ := by decide

/-- T15: the 71st byte is accepted. -/
theorem test_decoder_takes_the_last_byte :
    decStep Cfg.vectors ⟨.inFrame, List.replicate 70 0⟩ 0x00 = some ⟨⟨.inFrame, List.replicate 71 0⟩, none, none⟩ := by
  decide

/-- S8 and S12. -/
theorem test_decoder_sequences :
    feed Cfg.vectors Decoder.fresh [0x7E, 0x7D, 0x7E, 0x00, 0x03, 0x00, 0x7E] =
      some ⟨⟨.idle, []⟩, [[0x00, 0x03, 0x00]], [.escapedMarker]⟩ ∧
    feed Cfg.vectors Decoder.fresh [0x7E, 0x02, 0x08, 0x7E, 0x00, 0x03, 0x00, 0x7E] =
      some ⟨⟨.inFrame, []⟩, [[0x02, 0x08]], []⟩ := by decide

/-- S22: the marker cascade under `Emit`. -/
theorem test_decoder_cascade_under_emit :
    feed { Cfg.vectors with emptyFrame := .emit } Decoder.fresh [0x7E, 0x7E, 0x00, 0x03, 0x00, 0x7E] =
      some ⟨⟨.inFrame, []⟩, [[]], []⟩ := by decide

theorem test_encoder :
    frameEncode Cfg.vectors [] = [0x7E, 0x7E] ∧
    frameEncode Cfg.vectors [0x00, 0x03, 0x00] = [0x7E, 0x00, 0x03, 0x00, 0x7E] ∧
    frameEncode Cfg.vectors [0x03, 0x0C, 0x00, 0x7E, 0x7D, 0x00, 0x00, 0x7E, 0x7D, 0x20] =
      [0x7E, 0x03, 0x0C, 0x00, 0x7D, 0x5E, 0x7D, 0x5D, 0x00, 0x00, 0x7D, 0x5E, 0x7D, 0x5D, 0x20, 0x7E] := by decide

/-! ### Packets, validator, CRC, the host's reply decoder: 95_test_vectors.md 2.4, 2.5, 2.8 -/

theorem test_build_reply :
    buildReply 0x02 .badLength [0xAA, 0xAA] = [0x02, 0x04, 0x00, 0x03] ∧
    buildReply 0x04 .none [0xC3, 0x31] = [0x04, 0x06, 0x00, 0x00, 0xC3, 0x31] ∧
    buildReply (replyOp []) .badCommand [] = [0xFF, 0x04, 0x00, 0x01] := by decide

theorem test_read_and_write_checks :
    readCheck Cfg.vectors 0 65 = .badLength ∧ readCheck Cfg.vectors 0 0 = .badAddress ∧
    readCheck Cfg.vectors 32704 64 = .none ∧ readCheck Cfg.vectors 32705 64 = .badAddress ∧
    readCheck Cfg.vectors 32760 65 = .badLength ∧ readCheck Cfg.vectors 0xFFFFFFFF 2 = .badAddress ∧
    writeCheck Cfg.vectors 32767 1 = .none ∧ writeCheck Cfg.vectors 32767 2 = .badAddress ∧
    writeCheck Cfg.vectors 0xFFFFFFFC 5 = .badAddress := by decide

theorem test_range_checks :
    crcCheck Cfg.vectors 0 32768 = .none ∧ crcCheck Cfg.vectors 0 32769 = .badAddress ∧
    crcCheck Cfg.vectors 100 100 = .badAddress ∧
    eraseCheck Cfg.vectors 28672 32768 = .none ∧ eraseCheck Cfg.vectors 28672 36864 = .badAddress ∧
    eraseCheck Cfg.vectors 0 4095 = .badAddress ∧ eraseCheck Cfg.vectors 1 4096 = .badAddress ∧
    eraseCheck Cfg.vectors 4096 4096 = .badAddress := by decide

theorem test_crc16_of_one_byte : crc16 [0x80] = 0x9188 ∧ crc16 [0x7E] = 0x9F59 := by decide

theorem test_crc16_of_four_bytes : crc16 [1, 2, 3, 4] = 0x0D03 := by decide +kernel

theorem test_decode_reply :
    decodeReply 0x02 2 [0x02, 0x06, 0x00, 0x00, 0xAA, 0xBB] = .ok [0xAA, 0xBB] ∧
    decodeReply 0x02 3 [0x02, 0x06, 0x00, 0x00, 0xAA, 0xBB] = .malformed .length ∧
    decodeReply 0x02 10 [0x02, 0x04, 0x00, 0x02] = .failed .badAddress ∧
    decodeReply 0x03 0 [0x02, 0x04, 0x00, 0x00] = .malformed .opcode ∧
    decodeReply 0x04 0 [0x04, 0x05, 0x00, 0x00, 0x3E, 0xE0] = .malformed .length ∧
    decodeReply 0x05 0 [0x05, 0x04, 0x00, 0x04] = .failed .testMode ∧
    decodeReply 0x05 0 [0x05, 0x04, 0x00, 0x09] = .malformed .status ∧
    decodeReply 0x06 0 [0x06, 0x05, 0x00, 0x01, 0x00] = .malformed .length ∧
    decodeReply 0x00 0 [0x00, 0x03, 0x00] = .malformed .length := by decide

/-- R94's example: the seven body bytes of a `Ping` reply. -/
theorem test_ping_fields :
    callOutcome 0x00 0 (some [0x00, 0x0B, 0x00, 0x00, 0x01, 0x00, 0x00, 0x80, 0x00, 0x00, 0x40]) =
      .ok (.ping 0x01 0x00 32768 64) := by decide

/-- R73: ten bytes at 5 with `MTL = 4`. -/
theorem test_cli_expansion :
    expandCli { Cfg.vectors with mtl := 4 } (.read 5 15) = [.read 5 4, .read 9 4, .read 13 2] ∧
    expandCli { Cfg.vectors with mtl := 4 } (.write 5 [1, 2, 3, 4, 5, 6]) = [.write 5 [1, 2, 3, 4], .write 9 [5, 6]] := by
  decide

/-! ### One step and one reply of each command: 95_test_vectors.md 2.7 -/

/-- A block with the vectors' configuration and the reference flash, every cell erased. -/
def block : State := State.resetWith Cfg.vectors (.reference [])

/-- The block in `EXEC` with `k` transactions issued, bytes read, and no request outstanding. -/
def running (f : List Byte) (k : Nat) (reads : List Byte) : State :=
  { block with phase := .exec, cmd := some f, exec := some ⟨k, reads⟩ }

/-- The block in `EXEC` with request `q` outstanding. -/
def awaiting (f : List Byte) (k : Nat) (q : FlashReq) : State :=
  { running f k [] with flashReq := some q }

/-- The reply packet of a command against a reference array. -/
def reply (f : List Byte) (cells : Memory) : List Byte :=
  replyPacket Cfg.vectors f ⟨.reference cells, false, 0⟩

theorem test_ping_reply : reply [0x00, 0x03, 0x00] [] =
    [0x00, 0x0B, 0x00, 0x00, 0x01, 0x00, 0x00, 0x80, 0x00, 0x00, 0x40] := by decide

theorem test_ping_step : ∃ t, exec .ping (running [0x00, 0x03, 0x00] 0 []) = .next t ∧ t.phase = .send ∧
    t.txQ = [0x7E, 0x00, 0x0B, 0x00, 0x00, 0x01, 0x00, 0x00, 0x80, 0x00, 0x00, 0x40, 0x7E] :=
  ⟨_, rfl, by decide⟩

theorem test_identify_reply : reply [0x01, 0x03, 0x00] [] = [0x01, 0x06, 0x00, 0x00, 0xBF, 0xB7] := by decide

theorem test_identify_step : ∃ t, exec .identify (running [0x01, 0x03, 0x00] 1 []) = .next t ∧ t.phase = .exec ∧
    t.flashReq = some ⟨.readMfrId, 0, 0⟩ :=
  ⟨_, rfl, by decide⟩

/-- `READ 0, 4` with `11 22 33 44` at 0; and R119's example. -/
theorem test_read_reply :
    reply [0x02, 0x08, 0x00, 0x00, 0x00, 0x00, 0x00, 0x04] [(0, 0x11), (1, 0x22), (2, 0x33), (3, 0x44)] =
      [0x02, 0x08, 0x00, 0x00, 0x11, 0x22, 0x33, 0x44] ∧
    reply [0x02, 0x08, 0x00, 0xF8, 0x7F, 0x00, 0x00, 0x40] [] = [0x02, 0x04, 0x00, 0x02] := by decide

theorem test_read_step : ∃ t, exec (.read 0x7FFE 2) (running (encode (.read 0x7FFE 2)) 1 [0x11]) = .next t ∧
    t.flashReq = some ⟨.readByte, 0x7FFF, 0⟩ ∧ t.exec = some ⟨2, [0x11]⟩ :=
  ⟨_, rfl, by decide⟩

theorem test_write_reply :
    reply [0x03, 0x08, 0x00, 0xFF, 0x7F, 0x00, 0x00, 0x12] [] = [0x03, 0x04, 0x00, 0x00] ∧
    reply [0x03, 0x09, 0x00, 0xFF, 0x7F, 0x00, 0x00, 0x12, 0x34] [] = [0x03, 0x04, 0x00, 0x02] := by decide

/-- The response to a program stores the byte in the reference array (R57). -/
theorem test_write_step : ∃ t,
    exec (.write 5 [0x7E]) (awaiting (encode (.write 5 [0x7E])) 1 ⟨.writeByte, 5, 0x7E⟩) = .next t ∧
    t.flash.array = .reference [(5, 0x7E)] ∧ t.flashReq = none :=
  ⟨_, rfl, by decide⟩

/-- `CRC 0, 1` over erased flash; `CRC 10, 10` is empty. -/
theorem test_crc_reply :
    reply [0x04, 0x0B, 0x00, 0x00, 0x00, 0x00, 0x00, 0x01, 0x00, 0x00, 0x00] [] = [0x04, 0x06, 0x00, 0x00, 0xF0, 0x1E] ∧
    reply [0x04, 0x0B, 0x00, 0x0A, 0x00, 0x00, 0x00, 0x0A, 0x00, 0x00, 0x00] [] = [0x04, 0x04, 0x00, 0x02] := by decide

theorem test_crc_step : ∃ t, exec (.crc 100 110) (running (encode (.crc 100 110)) 3 [1, 2, 3]) = .next t ∧
    t.flashReq = some ⟨.readByte, 103, 0⟩ :=
  ⟨_, rfl, by decide⟩

/-- `ERASE 4096, 16384` erases the sectors 4096, 8192 and 12288. -/
theorem test_erase_transactions :
    (dispatch Cfg.vectors [0x05, 0x0B, 0x00, 0x00, 0x10, 0x00, 0x00, 0x00, 0x40, 0x00, 0x00]).ops =
      [⟨.eraseSector, 4096, 0⟩, ⟨.eraseSector, 8192, 0⟩, ⟨.eraseSector, 12288, 0⟩] := by decide

theorem test_erase_step : ∃ t,
    exec (.erase 4096 8192) { awaiting (encode (.erase 4096 8192)) 1 ⟨.eraseSector, 4096, 0⟩ with
      flash := ⟨.reference [(4095, 1), (4096, 2), (8191, 3), (8192, 4)], false, 0⟩ } = .next t ∧
    t.flash.array = .reference [(4095, 1), (8192, 4)] :=
  ⟨_, rfl, by decide⟩

theorem test_erasechip_reply : reply [0x06, 0x03, 0x00] [] = [0x06, 0x04, 0x00, 0x00] := by decide

theorem test_erasechip_step : ∃ t, exec .erasechip (running [0x06, 0x03, 0x00] 0 []) = .next t ∧
    t.flashReq = some ⟨.eraseChip, 0, 0⟩ :=
  ⟨_, rfl, by decide⟩

/-- T9 as a step of the machine: the framing error is recorded, and the block stays in `RECV`. -/
theorem test_receive_step : ∃ t,
    step { block with dec := ⟨.escaped, [1, 2]⟩, rx := [0x7E, 0x00] } = .next t ∧ t.phase = .recv ∧
      t.dec = ⟨.inFrame, []⟩ ∧ t.rx = [0x00] ∧ t.trace = [.rxByte 0x7E, .framingError .escapedMarker] :=
  ⟨_, rfl, by decide⟩

theorem test_send_step : ∃ t, step { block with phase := .send, txQ := [0x7E] } = .next t ∧ t.phase = .recv ∧
    t.trace = [.txByte 0x7E] :=
  ⟨_, rfl, by decide⟩

/-! ### Witnesses: a state and operands that meet the hypotheses of each obligation -/

/-- The vectors' configuration with the other policy of R11. -/
def emitCfg : Cfg := { Cfg.vectors with emptyFrame := .emit }

/-- The smallest legal geometry: one cell, one sector, one data byte. -/
def smallestCfg : Cfg := { Cfg.vectors with romSize := 1, sectorSize := 1, mtl := 1 }

/-- The largest legal geometry. -/
def largestCfg : Cfg := { Cfg.vectors with romSize := 0x80000000, sectorSize := 0x80000000, mtl := 255 }

theorem test_witness_legal_configurations :
    Cfg.vectors.legal = true ∧ emitCfg.legal = true ∧ smallestCfg.legal = true ∧ largestCfg.legal = true := by decide

theorem test_witness_DecodeOfEncodeIsIdentity :
    (Instr.write 0xFFFFFFFF [0xFF]).wf ∧ (Instr.write 0xFFFFFFFF (List.replicate 65528 0)).wf :=
  ⟨by decide, test_longest_write_is_well_formed⟩

theorem test_witness_EncodeOfDecodeIsIdentity :
    decodeCommand [0x03, 0x08, 0x00, 0xFF, 0xFF, 0xFF, 0xFF, 0xFF] = .ok (.write 0xFFFFFFFF [0xFF]) := by decide

theorem test_witness_PacketSizesAreBounded :
    Cfg.vectors.legal = true ∧ (Instr.write 0 (List.replicate 64 0)).wf ∧
      (List.replicate 64 (0 : Byte)).length ≤ Cfg.vectors.mtl.toNat := by decide

/-- `ESCAPE` is a byte other than `MARKER`. -/
theorem test_witness_IdleIgnoresOtherBytes : Cfg.vectors.escape ≠ Cfg.vectors.marker := by decide

theorem test_witness_InFrameBytesAccumulate :
    Cfg.vectors.legal = true ∧ (0x00 : Byte) ≠ Cfg.vectors.marker ∧ (0x00 : Byte) ≠ Cfg.vectors.escape ∧
      (List.replicate 70 (0 : Byte)).length < Cfg.vectors.maxPacket ∧
      (List.replicate 71 (0 : Byte)).length = Cfg.vectors.maxPacket := by decide

/-- `ESCAPE` after `ESCAPE` is a byte other than `MARKER` (R81 case 1). -/
theorem test_witness_EscapedBytesAreUntransformed :
    Cfg.vectors.escape ≠ Cfg.vectors.marker ∧ (List.replicate 70 (0 : Byte)).length < Cfg.vectors.maxPacket ∧
      (List.replicate 71 (0 : Byte)).length = Cfg.vectors.maxPacket := by decide

theorem test_witness_FrameRoundTrip :
    Cfg.vectors.legal = true ∧ 1 ≤ [Cfg.vectors.marker].length ∧ [Cfg.vectors.marker].length ≤ Cfg.vectors.maxPacket ∧
      1 ≤ (List.replicate 71 (0x7E : Byte)).length ∧ (List.replicate 71 (0x7E : Byte)).length ≤ Cfg.vectors.maxPacket := by
  decide

theorem test_witness_FrameRoundTripAtOtherLengths :
    Cfg.vectors.legal = true ∧ Cfg.vectors.emptyFrame = .ignore ∧ emitCfg.legal = true ∧ emitCfg.emptyFrame = .emit ∧
      Cfg.vectors.maxPacket < (List.replicate 72 (0 : Byte)).length := by decide

/-- The shortest and the longest packet, under each policy. -/
theorem test_witness_MarkerResynchronizesTheDecoder :
    Cfg.vectors.legal = true ∧ emitCfg.legal = true ∧ Cfg.vectors.emptyFrame = .ignore ∧
      1 ≤ [(0x7E : Byte)].length ∧ [(0x7E : Byte)].length ≤ Cfg.vectors.maxPacket ∧
      1 ≤ (List.replicate 71 (0x7E : Byte)).length ∧ (List.replicate 71 (0x7E : Byte)).length ≤ emitCfg.maxPacket := by
  decide

/-- The last cell of the chip and its last sector. -/
theorem test_witness_EveryRequestStaysInsideTheChip :
    Cfg.vectors.legal = true ∧
      (⟨.readByte, 0x7FFF, 0⟩ : FlashReq) ∈ (dispatch Cfg.vectors (encode (.read 0x7FFF 1))).ops ∧
      (⟨.writeByte, 0x7FFF, 5⟩ : FlashReq) ∈ (dispatch Cfg.vectors (encode (.write 0x7FFF [5]))).ops ∧
      (⟨.eraseSector, 28672, 0⟩ : FlashReq) ∈ (dispatch Cfg.vectors (encode (.erase 28672 32768))).ops := by decide

theorem test_witness_PingRepliesVersionAndGeometry :
    (running [0x00, 0x03, 0x00] 0 []).exec = some ⟨0, []⟩ ∧ (running [0x00, 0x03, 0x00] 0 []).flashReq = none := by decide

theorem test_witness_IdentifyIssuesFourTransactionsAndReplies :
    (running [0x01, 0x03, 0x00] 3 [1, 2]).flashReq = none ∧
      [FlashOp.enterId, .readMfrId, .readDevId, .leaveId][3]? = some .leaveId ∧
      (running [0x01, 0x03, 0x00] 3 [1, 2]).exec = some ⟨3, [1, 2]⟩ ∧
      (running [0x01, 0x03, 0x00] 4 [1, 2]).exec = some ⟨4, [1, 2]⟩ := by decide

/-- The last 64 bytes of the chip: the last transaction and the final step. -/
theorem test_witness_ReadIssuesAscendingReadsAndReplies :
    let s (k : Nat) := running (encode (.read 32704 64)) k (List.replicate k 0)
    (s 63).flashReq = none ∧ (s 64).flashReq = none ∧ 1 ≤ (64 : Byte).toNat ∧ (64 : Byte).toNat ≤ block.cfg.mtl.toNat ∧
      (32704 : Addr).toNat + (64 : Byte).toNat ≤ block.cfg.romSize.toNat ∧
      (63 < (64 : Byte).toNat ∧ (s 63).exec = some ⟨63, List.replicate 63 0⟩) ∧
      ((List.replicate 64 (0 : Byte)).length = (64 : Byte).toNat ∧ (s 64).exec = some ⟨64, List.replicate 64 0⟩) := by
  decide

theorem test_witness_WriteIssuesAscendingProgramsAndReplies :
    let s (k : Nat) := running (encode (.write 32766 [1, 2])) k []
    (s 1).flashReq = none ∧ 1 ≤ [(1 : Byte), 2].length ∧ [(1 : Byte), 2].length ≤ block.cfg.mtl.toNat ∧
      (32766 : Addr).toNat + [(1 : Byte), 2].length ≤ block.cfg.romSize.toNat ∧
      ([(1 : Byte), 2][1]? = some 2 ∧ (s 1).exec = some ⟨1, []⟩) ∧ (s 2).exec = some ⟨2, []⟩ := by decide

/-- The whole chip: the last transaction; one byte: the final step. -/
theorem test_witness_CrcIssuesAscendingReadsAndReplies :
    (running [] 32767 []).flashReq = none ∧ (0 : Addr).toNat < (32768 : Addr).toNat ∧
      (32768 : Addr).toNat ≤ block.cfg.romSize.toNat ∧ 32767 < (32768 : Addr).toNat - (0 : Addr).toNat ∧
      (running [] 32767 []).exec = some ⟨32767, []⟩ ∧
      ([(7 : Byte)].length = (32768 : Addr).toNat - (32767 : Addr).toNat ∧
        (running [] 1 [7]).exec = some ⟨(32768 : Addr).toNat - (32767 : Addr).toNat, [7]⟩) := by decide

theorem test_witness_EraseIssuesOneEraseASectorAndReplies :
    (running [] 7 []).flashReq = none ∧ (0 : Addr).toNat < (32768 : Addr).toNat ∧
      (32768 : Addr).toNat ≤ block.cfg.romSize.toNat ∧ (0 : Addr).toNat % block.cfg.sectorSize.toNat = 0 ∧
      (32768 : Addr).toNat % block.cfg.sectorSize.toNat = 0 ∧
      (7 < ((32768 : Addr).toNat - (0 : Addr).toNat) / block.cfg.sectorSize.toNat ∧
        (running [] 7 []).exec = some ⟨7, []⟩) ∧
      (running [] 8 []).exec =
        some ⟨((32768 : Addr).toNat - (0 : Addr).toNat) / block.cfg.sectorSize.toNat, []⟩ := by decide

theorem test_witness_EraseChipIssuesOneEraseAndReplies :
    (running [0x06, 0x03, 0x00] 0 []).flashReq = none ∧ (running [0x06, 0x03, 0x00] 0 []).exec = some ⟨0, []⟩ ∧
      (running [0x06, 0x03, 0x00] 1 []).exec = some ⟨1, []⟩ := by decide

theorem test_witness_FlashDriverAnswersTheOutstandingRequest :
    (awaiting [] 1 ⟨.readByte, 0x7FFF, 0⟩).exec = some ⟨1, []⟩ ∧
      (awaiting [] 1 ⟨.readByte, 0x7FFF, 0⟩).flashReq = some ⟨.readByte, 0x7FFF, 0⟩ ∧
      (⟨.readByte, 0x7FFF, 0⟩ : FlashReq).legal block.cfg = true := by decide

/-- Each clause at the first value that fails its check. -/
theorem test_witness_FailedChecksReplyTheStatusAlone :
    (running [] 0 []).exec = some ⟨0, []⟩ ∧ (running [] 0 []).flashReq = none ∧
      block.cfg.mtl.toNat < (65 : Byte).toNat ∧
      ((0 : Byte).toNat ≤ block.cfg.mtl.toNat ∧ (0 : Byte).toNat = 0) ∧
      ((64 : Byte).toNat ≤ block.cfg.mtl.toNat ∧ block.cfg.romSize.toNat < (32705 : Addr).toNat + (64 : Byte).toNat) ∧
      block.cfg.mtl.toNat < (List.replicate 65 (0 : Byte)).length ∧
      (1 ≤ [(1 : Byte)].length ∧ [(1 : Byte)].length ≤ block.cfg.mtl.toNat ∧
        block.cfg.romSize.toNat < (32768 : Addr).toNat + [(1 : Byte)].length) ∧
      (10 : Addr).toNat ≤ (10 : Addr).toNat ∧ block.cfg.romSize.toNat < (32769 : Addr).toNat ∧
      (1 : Addr).toNat % block.cfg.sectorSize.toNat ≠ 0 ∧ (4095 : Addr).toNat % block.cfg.sectorSize.toNat ≠ 0 := by
  decide

theorem test_witness_FailedFramesTouchNoFlash :
    (dispatch Cfg.vectors [0x07, 0x03, 0x00]).status ≠ .none ∧
      (dispatch Cfg.vectors (encode (.read 0 0))).status ≠ .none := by decide

/-- A step that issues, and a step that answers a program, with a cell the program does not touch. -/
theorem test_witness_CommandStepFrame :
    (∃ t, exec (.crc 100 110) (running [] 3 [1, 2, 3]) = .next t) ∧
      (∃ t, exec (.write 5 [0x7E]) (awaiting [] 1 ⟨.writeByte, 5, 0x7E⟩) = .next t) ∧
      (awaiting [] 1 ⟨.writeByte, 5, 0x7E⟩).flashReq = some ⟨.writeByte, 5, 0x7E⟩ ∧
      (⟨.writeByte, 5, 0x7E⟩ : FlashReq).touches block.cfg 6 = false :=
  ⟨⟨_, rfl⟩, ⟨_, rfl⟩, rfl, by decide⟩

/-- A frame just handed over. -/
theorem test_witness_AtEntry (f : List Byte) : AtEntry f (atHandover f block) :=
  ⟨test_vectors_are_legal, rfl, rfl, rfl, rfl, rfl⟩

theorem test_witness_HandlerRunsToItsReply : AtEntry [0x07, 0x03, 0x00] (atHandover [0x07, 0x03, 0x00] block) :=
  test_witness_AtEntry _

theorem test_witness_IdentifyLeavesIdMode :
    AtEntry [0x01, 0x03, 0x00] (atHandover [0x01, 0x03, 0x00] block) ∧
      (atHandover [0x01, 0x03, 0x00] block).flash.array = .reference [] :=
  ⟨test_witness_AtEntry _, rfl⟩

theorem test_witness_ReadReturnsTheCellsOfItsRange :
    AtEntry (encode (.read 32704 64)) (atHandover (encode (.read 32704 64)) block) ∧
      (atHandover (encode (.read 32704 64)) block).flash.idMode = false ∧
      1 ≤ (64 : Byte).toNat ∧ (64 : Byte).toNat ≤ block.cfg.mtl.toNat ∧
      (32704 : Addr).toNat + (64 : Byte).toNat ≤ block.cfg.romSize.toNat :=
  ⟨test_witness_AtEntry _, rfl, by decide⟩

theorem test_witness_WriteChangesOnlyItsRange :
    AtEntry (encode (.write 32766 [1, 2])) (atHandover (encode (.write 32766 [1, 2])) block) ∧
      1 ≤ [(1 : Byte), 2].length ∧ [(1 : Byte), 2].length ≤ block.cfg.mtl.toNat ∧
      (32766 : Addr).toNat + [(1 : Byte), 2].length ≤ block.cfg.romSize.toNat ∧
      block.flash.array = .reference [] ∧ Memory.wf [] ∧ [(1 : Byte), 2][1]? = some 2 :=
  ⟨test_witness_AtEntry _, by decide⟩

theorem test_witness_CrcReturnsTheCrcOfItsRange :
    AtEntry (encode (.crc 0 32768)) (atHandover (encode (.crc 0 32768)) block) ∧
      (atHandover (encode (.crc 0 32768)) block).flash.idMode = false ∧
      (0 : Addr).toNat < (32768 : Addr).toNat ∧ (32768 : Addr).toNat ≤ block.cfg.romSize.toNat :=
  ⟨test_witness_AtEntry _, rfl, by decide⟩

theorem test_witness_EraseChangesOnlyItsRange :
    AtEntry (encode (.erase 28672 32768)) (atHandover (encode (.erase 28672 32768)) block) ∧
      (28672 : Addr).toNat < (32768 : Addr).toNat ∧ (32768 : Addr).toNat ≤ block.cfg.romSize.toNat ∧
      (28672 : Addr).toNat % block.cfg.sectorSize.toNat = 0 ∧ (32768 : Addr).toNat % block.cfg.sectorSize.toNat = 0 :=
  ⟨test_witness_AtEntry _, by decide⟩

theorem test_witness_EraseChipErasesEveryCell : AtEntry [0x06, 0x03, 0x00] (atHandover [0x06, 0x03, 0x00] block) :=
  test_witness_AtEntry _

theorem test_witness_ExactlyOneReplyPerFrame :
    let s : State := { block with rx := frameEncode block.cfg [0x07] ++ [0x7E] }
    s.cfg.legal = true ∧ Quiescent s ∧ s.sched = [] ∧ s.rx = frameEncode s.cfg [0x07] ++ [0x7E] ∧
      (1 ≤ [(0x07 : Byte)].length ∨ s.cfg.emptyFrame = .emit) ∧ [(0x07 : Byte)].length ≤ s.cfg.maxPacket :=
  ⟨by decide, ⟨rfl, rfl, rfl, rfl, rfl, rfl⟩, rfl, rfl, by decide, by decide⟩

/-- The empty frame under `Emit`. -/
theorem test_witness_ExactlyOneReplyPerFrame_empty :
    let s : State := { State.resetWith emitCfg (.reference []) with rx := frameEncode emitCfg [] }
    s.cfg.legal = true ∧ Quiescent s ∧ s.sched = [] ∧ s.rx = frameEncode s.cfg [] ++ [] ∧
      (1 ≤ ([] : List Byte).length ∨ s.cfg.emptyFrame = .emit) ∧ ([] : List Byte).length ≤ s.cfg.maxPacket :=
  ⟨by decide, ⟨rfl, rfl, rfl, rfl, rfl, rfl⟩, rfl, rfl, by decide, by decide⟩

/-- Two commands and a frame that is none, from the reset block. -/
theorem test_witness_CommandRunsComplete :
    block.cfg.legal = true ∧ Quiescent block ∧ block.sched = [] ∧ block.rx = [] ∧
      ∀ c ∈ [encode .ping, [0x07], encode (.write 0 (List.replicate 64 0x7E))],
        (1 ≤ c.length ∨ block.cfg.emptyFrame = .emit) ∧ c.length ≤ block.cfg.maxPacket :=
  ⟨by decide, ⟨rfl, rfl, rfl, rfl, rfl, rfl⟩, rfl, rfl, by decide⟩

theorem test_witness_StepRunsTheDecodedCommand :
    let s := running [0x00, 0x03, 0x00] 0 []
    s.cfg.legal = true ∧ s.phase = .exec ∧ s.cmd = some [0x00, 0x03, 0x00] ∧
      decodeCommand [0x00, 0x03, 0x00] = .ok .ping ∧ s.sched = [] ∧
      ({ s with sched := [.go, .stall] } : State).sched = .go :: [.stall] := by decide

theorem test_witness_FetchedWordRunsNext : State.reset.cfg.legal = true ∧ decodeTableWord 8 6 = some .erasechip := by decide

theorem test_witness_RejectedFramesAreAnsweredBadCommand :
    AtEntry [0x02, 0x08] (atHandover [0x02, 0x08] block) ∧ decodeCommand [0x02, 0x08] = .error .badHeader ∧
      AtEntry [] (atHandover [] block) ∧ decodeCommand [] = .error .emptyFrame ∧
      AtEntry [0x07, 0x03, 0x00] (atHandover [0x07, 0x03, 0x00] block) ∧
      decodeCommand [0x07, 0x03, 0x00] = .error .unknownOpcode ∧
      AtEntry [0x00, 0x04, 0x00, 0x00] (atHandover [0x00, 0x04, 0x00, 0x00] block) ∧
      decodeCommand [0x00, 0x04, 0x00, 0x00] = .error .badPayloadLength :=
  ⟨test_witness_AtEntry _, by decide, test_witness_AtEntry _, by decide, test_witness_AtEntry _, by decide,
    test_witness_AtEntry _, by decide⟩

/-- A byte that completes no frame, and one that completes one. -/
theorem test_witness_ReceiveTakesOneByte :
    block.cfg.legal = true ∧ block.phase = .recv ∧ block.sched = [] ∧
      decStep block.cfg ⟨.idle, []⟩ 0x7E = some ⟨⟨.inFrame, []⟩, none, none⟩ ∧
      decStep block.cfg ⟨.inFrame, [0x02]⟩ 0x7E = some ⟨⟨.idle, []⟩, some [0x02], none⟩ ∧
      ({ block with dec := ⟨.inFrame, [0x02]⟩, rx := [0x7E] } : State).rx = 0x7E :: [] := by decide

theorem test_witness_SendEmitsOneByte :
    let s : State := { block with phase := .send, txQ := [0x01, 0x7E] }
    s.cfg.legal = true ∧ s.phase = .send ∧ s.sched = [] ∧ s.txQ = 0x01 :: [0x7E] := by decide

theorem test_witness_FramingErrorsStayInTheDecoder : ∃ t,
    ({ block with dec := ⟨.escaped, [1]⟩, rx := [0x7E] } : State).phase = .recv ∧
      ({ block with dec := ⟨.escaped, [1]⟩, rx := [0x7E] } : State).sched = [] ∧
      step { block with dec := ⟨.escaped, [1]⟩, rx := [0x7E] } = .next t ∧
      t.trace = [] ++ [.rxByte 0x7E, .framingError .escapedMarker] :=
  ⟨_, rfl, rfl, rfl, by decide⟩

theorem test_witness_AbsentStateFaults :
    block.cfg.legal = true ∧ block.sched = [] ∧
      ({ block with phase := .unused } : State).phase = .unused ∧
      (let s : State := { block with dec := ⟨.unused, []⟩, rx := [0] }
       s.phase = .recv ∧ s.dec.st = .unused ∧ s.rx ≠ []) ∧
      (let s : State := { block with phase := .exec }
       s.phase = .exec ∧ s.cmd = none) ∧
      (let s : State := { block with phase := .exec, cmd := some [0x00, 0x03, 0x00] }
       s.phase = .exec ∧ s.cmd = some [0x00, 0x03, 0x00] ∧ s.exec = none) := by decide

/-- The first address beyond the chip for each operation, and an erase one byte past a sector's base. -/
theorem test_witness_IllegalFlashRequestsFault :
    let s (q : FlashReq) := awaiting [] 1 q
    let q : FlashReq := ⟨.readByte, 0x8000, 0⟩
    (s q).cfg.legal = true ∧ (s q).sched = [] ∧ (s q).phase = .exec ∧ (s q).cmd = some [] ∧
      (s q).exec = some ⟨1, []⟩ ∧ (s q).flashReq = some q ∧ (s q).cfg.romSize.toNat ≤ q.addr.toNat ∧
      (s q).cfg.romSize.toNat ≤ (⟨.writeByte, 0x8000, 0⟩ : FlashReq).addr.toNat ∧
      (s q).cfg.romSize.toNat ≤ (⟨.eraseSector, 0x8000, 0⟩ : FlashReq).addr.toNat ∧
      (⟨.eraseSector, 0x1001, 0⟩ : FlashReq).addr.toNat % (s q).cfg.sectorSize.toNat ≠ 0 := by decide

theorem test_witness_IllegalConfigurationIsRefused :
    ({ Cfg.vectors with escXor := 0 } : Cfg).legal = false ∧
      (∀ k, ({ Cfg.vectors with romSize := 0 } : Cfg).romSize.toNat ≠ 2 ^ k) ∧
      ({ Cfg.vectors with sectorSize := 65536 } : Cfg).romSize.toNat <
        ({ Cfg.vectors with sectorSize := 65536 } : Cfg).sectorSize.toNat ∧
      ({ Cfg.vectors with mtl := 0 } : Cfg).mtl.toNat = 0 ∧
      ({ Cfg.vectors with escape := 0x7E } : Cfg).marker = ({ Cfg.vectors with escape := 0x7E } : Cfg).escape :=
  ⟨by decide, fun k => (Nat.ne_of_gt (Nat.two_pow_pos k)).symm, by decide, by decide, by decide⟩

/-- With no request outstanding, and with a sector erase outstanding and a cell it does not touch. -/
theorem test_witness_ResetAbandonsTheCommand :
    let s : State := { awaiting [] 1 ⟨.eraseSector, 4096, 0⟩ with sched := [.reset] }
    block.cfg.legal = true ∧ ({ block with sched := [.reset] } : State).sched = .reset :: [] ∧ block.flashReq = none ∧
      s.sched = .reset :: [] ∧ s.flashReq = some ⟨.eraseSector, 4096, 0⟩ ∧
      (⟨.eraseSector, 4096, 0⟩ : FlashReq).touches s.cfg 8192 = false ∧
      (⟨.eraseSector, 4096, 0⟩ : FlashReq).touches s.cfg 4095 = false := by decide

theorem test_witness_WaitingChangesNothing :
    block.cfg.legal = true ∧ ({ block with sched := [.stall] } : State).sched = .stall :: [] ∧
      block.sched = [] ∧ block.phase = .recv ∧ block.rx = [] := by decide

/-- Reset is well shaped. -/
theorem test_block_is_well_shaped : WellShaped block :=
  ⟨Nat.zero_le _, fun _ => rfl, fun h => absurd rfl h, fun h => (nomatch h), fun _ => rfl⟩

theorem test_witness_EveryStepKeepsTheShape : WellShaped block ∧ ∃ t, step block = .next t :=
  ⟨test_block_is_well_shaped, _, rfl⟩

/-- Reset is safe. -/
theorem test_block_is_safe : Safe block where
  configLegal := by decide
  held := ⟨by decide, by decide, by decide, by decide, by decide, by decide⟩
  onTrack := fun _ _ h => by cases h
  idModeLeft := fun _ => rfl
  inChip := fun _ h => by cases h

/-- A safe state in `EXEC`, with a request outstanding: the claims about safe states are not about idle blocks only. -/
theorem test_awaiting_is_safe : Safe (awaiting [0x06, 0x03, 0x00] 1 ⟨.eraseChip, 0, 0⟩) where
  configLegal := by decide
  held := ⟨by decide, by decide, by decide, by decide, by decide, by decide⟩
  onTrack := by
    rintro f p hf hp
    cases hf
    cases hp
    exact ⟨by decide, fun q hq => by cases hq; decide, by decide, by decide⟩
  idModeLeft := fun h => absurd rfl h
  inChip := fun _ h => by cases h

theorem test_witness_SafetyHoldsAtReset : smallestCfg.legal = true ∧ largestCfg.legal = true := by decide

theorem test_witness_EveryStepKeepsSafety : Safe block ∧ ∃ t, step block = .next t :=
  ⟨test_block_is_safe, _, rfl⟩

theorem test_witness_SafeStatesAlwaysStep : Safe (awaiting [0x06, 0x03, 0x00] 1 ⟨.eraseChip, 0, 0⟩) :=
  test_awaiting_is_safe

theorem test_witness_StepsKeepTheConfigurationAndTheTrace : ∃ t, step { block with rx := [0x7E] } = .next t :=
  ⟨_, rfl⟩

theorem test_witness_FlashArrayStaysCanonical :
    (awaiting [] 1 ⟨.writeByte, 5, 0x7E⟩).flash.array.wf ∧
      ∃ t, step (awaiting (encode (.write 5 [0x7E])) 1 ⟨.writeByte, 5, 0x7E⟩) = .next t :=
  ⟨⟨List.Pairwise.nil, fun _ h => by cases h⟩, _, rfl⟩

theorem test_witness_HostDecodesEveryReply :
    Cfg.vectors.legal = true ∧
      [(1 : Byte), 2].length = (handlerOf Cfg.vectors (.read 32766 2)).ops.countP (fun q => q.op.isRead) ∧
      ([] : List Byte).length = (handlerOf Cfg.vectors (.read 32767 2)).ops.countP (fun q => q.op.isRead) := by decide

theorem test_witness_CliWriteCoversItsFile :
    Cfg.vectors.legal = true ∧ 32766 + [(1 : Byte), 2].length ≤ Cfg.vectors.romSize.toNat ∧
      (expandCli Cfg.vectors (.write 32766 [1, 2]))[0]? = some (.write 32766 [1, 2]) := by decide

end Sys2Proof.Tests
end

section
/-! PROOFS. The scope of the model: which configurations are legal (10_state.md R26), the shape of an encoded frame
(40_framecodec.md R84, R85), and the sizes of commands and replies (41_packet.md R96). -/

namespace Sys2Proof

/-! ### Legal configurations -/

theorem isPowerOfTwo_iff (n : Nat) : isPowerOfTwo n = true ↔ ∃ k ≤ 31, n = 2 ^ k := by
  simp only [isPowerOfTwo, List.any_eq_true, List.mem_range, Nat.lt_succ_iff, beq_iff_eq, eq_comm (a := n)]

/-- The geometry half of R26. The model compares the two sizes; the spec compares their exponents. -/
theorem Cfg.legalGeometry_iff (c : Cfg) :
    c.legalGeometry = true ↔
      (∃ k j, k ≤ 31 ∧ j ≤ k ∧ c.romSize.toNat = 2 ^ k ∧ c.sectorSize.toNat = 2 ^ j) ∧ 1 ≤ c.mtl.toNat := by
  simp only [Cfg.legalGeometry, Bool.and_eq_true, decide_eq_true_eq, isPowerOfTwo_iff]
  constructor
  · rintro ⟨⟨⟨⟨k, hk, hrom⟩, j, -, hsector⟩, hle⟩, hmtl⟩
    have hjk : j ≤ k := (Nat.pow_le_pow_iff_right Nat.one_lt_two).mp (hrom ▸ hsector ▸ hle)
    exact ⟨⟨k, j, hk, hjk, hrom, hsector⟩, hmtl⟩
  · rintro ⟨⟨k, j, hk, hjk, hrom, hsector⟩, hmtl⟩
    have hle : c.sectorSize.toNat ≤ c.romSize.toNat :=
      hrom ▸ hsector ▸ Nat.pow_le_pow_right Nat.two_pos hjk
    exact ⟨⟨⟨⟨k, hk, hrom⟩, j, hjk.trans hk, hsector⟩, hle⟩, hmtl⟩

/-- The model tests the one byte whose transform is `MARKER`; R8 speaks of every byte in the set. -/
theorem Cfg.no_byte_transformed_to_marker_iff (c : Cfg) :
    c.inEscapeSet (c.marker ^^^ c.escXor) = false ↔ ∀ b, c.inEscapeSet b = true → b ^^^ c.escXor ≠ c.marker := by
  simp only [ne_eq, xor_eq_iff_left_eq]
  constructor
  · rintro h b hb rfl
    exact absurd hb (by simp [h])
  · intro h
    exact Bool.eq_false_iff.mpr fun hb => h _ hb rfl

theorem Cfg.legalCodec_iff (c : Cfg) :
    c.legalCodec = true ↔
      c.marker ≠ c.escape ∧ c.escXor ≠ 0 ∧ c.inEscapeSet c.marker = true ∧ c.inEscapeSet c.escape = true ∧
        ∀ b, c.inEscapeSet b = true → b ^^^ c.escXor ≠ c.marker := by
  simp only [Cfg.legalCodec, Bool.and_eq_true, decide_eq_true_eq, Bool.not_eq_true',
    Cfg.no_byte_transformed_to_marker_iff, and_assoc]

/-- Settles O47: the geometry half and the codec half of R26, each by its own equivalence. -/
theorem legalConfigurationsAreThoseOfTheSpec : Obligations.LegalConfigurationsAreThoseOfTheSpec := by
  intro c
  rw [Cfg.legal, Bool.and_eq_true, c.legalGeometry_iff, c.legalCodec_iff, and_assoc]

namespace Machine

/-! ### Encoded frames -/

@[simp] theorem escapeByte_of_mem {cfg : Cfg} {b : Byte} (h : cfg.inEscapeSet b = true) :
    escapeByte cfg b = [cfg.escape, b ^^^ cfg.escXor] := if_pos h

@[simp] theorem escapeByte_of_not_mem {cfg : Cfg} {b : Byte} (h : cfg.inEscapeSet b = false) :
    escapeByte cfg b = [b] := if_neg (Bool.eq_false_iff.mp h)

/-- No wire byte of a payload byte is the marker: `ESCAPE` is another byte, no transformed byte is `MARKER`, and `MARKER`
itself never stands unescaped (R8). -/
theorem marker_not_mem_escapeByte {cfg : Cfg} (hc : cfg.legalCodec = true) (b : Byte) :
    cfg.marker ∉ escapeByte cfg b := by
  obtain ⟨hescape, -, hmarker, -, htransformed⟩ := cfg.legalCodec_iff.mp hc
  cases hb : cfg.inEscapeSet b with
  | true => simp [hb, hescape, (htransformed b hb).symm]
  | false =>
    have hne : cfg.marker ≠ b := by
      rintro rfl
      exact absurd hmarker (by simp [hb])
    simpa [hb] using hne

theorem marker_not_mem_frameBody {cfg : Cfg} (hc : cfg.legalCodec = true) (p : List Byte) :
    cfg.marker ∉ frameBody cfg p := by
  simp only [frameBody, List.mem_flatMap, not_exists, not_and]
  exact fun b _ => marker_not_mem_escapeByte hc b

@[simp] theorem frameBody_nil (cfg : Cfg) : frameBody cfg [] = [] := rfl

@[simp] theorem frameBody_cons (cfg : Cfg) (b : Byte) (p : List Byte) :
    frameBody cfg (b :: p) = escapeByte cfg b ++ frameBody cfg p := rfl

/-- Every payload byte stands in the body once, and an escaped one brings the escape byte with it. -/
theorem frameBody_length (cfg : Cfg) (p : List Byte) :
    (frameBody cfg p).length = p.length + p.countP (fun b => cfg.inEscapeSet b) := by
  induction p with
  | nil => rfl
  | cons b p ih =>
    cases hb : cfg.inEscapeSet b with
    | true => simp [hb, ih]; omega
    | false => simp [hb, ih]; omega

theorem frameEncode_length (cfg : Cfg) (p : List Byte) :
    (frameEncode cfg p).length = 2 + p.length + p.countP (fun b => cfg.inEscapeSet b) := by
  simp only [frameEncode, List.length_cons, List.length_append, List.length_nil, frameBody_length]
  omega

/-- Settles O11: the body between the markers is `frameBody`. -/
theorem markersStandOnlyAtTheEndsOfAFrame : Obligations.MarkersStandOnlyAtTheEndsOfAFrame := by
  intro cfg p hlegal
  have hcodec : cfg.legalCodec = true := (Bool.and_eq_true_iff.mp hlegal).2
  exact ⟨⟨frameBody cfg p, rfl, marker_not_mem_frameBody hcodec p⟩, frameEncode_length cfg p⟩

/-! ### The sizes of commands and replies -/

/-- R66's payload fits the decoder's buffer behind the header: 8 bytes for the ranges, an address and at most `MTL` bytes of
data for a `Write`. -/
theorem payload_length_le (cfg : Cfg) (i : Instr) (hdata : ∀ a d, i = .write a d → d.length ≤ cfg.mtl.toNat) :
    i.payload.length ≤ max 8 (4 + cfg.mtl.toNat) := by
  cases i with
  | write a d =>
    have hd := hdata a d rfl
    simp only [Instr.payload, List.length_append, le32_length]
    omega
  | ping | identify | read | crc | erase | erasechip => simp [Instr.payload]

/-- A reply's payload is its status byte and at most its body (R67). -/
theorem replyPayload_length_bounds (status : StatusCode) (body : List Byte) :
    1 ≤ (replyPayload status body).length ∧ (replyPayload status body).length ≤ 1 + body.length := by
  cases status <;> simp [replyPayload, Nat.add_comm]

theorem Handler.reply_length_bounds (h : Handler) (reads : List Byte) :
    4 ≤ (h.reply reads).length ∧ (h.reply reads).length ≤ 4 + (h.body reads).length := by
  have hpayload := replyPayload_length_bounds h.status (h.body reads)
  simp only [Handler.reply, buildReply, buildPacket_length]
  omega

/-- A guarded handler's body is no longer than the handler's own where the check passes; a failed check leaves none. -/
theorem Handler.guarded_body_length_le {check : StatusCode} {h : Handler} {reads : List Byte} {n : Nat}
    (hbody : check = .none → (h.body reads).length ≤ n) : ((h.guarded check).body reads).length ≤ n := by
  obtain ⟨hpass, heq⟩ | ⟨-, heq⟩ := Handler.guarded_cases check h
  · rw [heq]
    exact hbody hpass
  · rw [heq]
    exact Nat.zero_le n

/-- A `Read` that passes its check asks for at most `MTL` bytes (R99). -/
theorem len_le_mtl_of_readCheck {cfg : Cfg} {addr len : Nat} (h : readCheck cfg addr len = .none) :
    len ≤ cfg.mtl.toNat := by
  by_contra hlt
  simp [readCheck, Nat.not_le.mp hlt] at h

/-- The longest success bodies are `Ping`'s 7 bytes and a `Read`'s `MTL` (R117, R119). -/
theorem handlerOf_body_length_le (cfg : Cfg) (i : Instr) (reads : List Byte) :
    ((handlerOf cfg i).body reads).length ≤ max 7 cfg.mtl.toNat := by
  cases i with
  | ping => simp [handlerOf, pingHandler]
  | identify =>
    simp only [handlerOf, identifyHandler, List.length_take]
    omega
  | read addr len =>
    refine Handler.guarded_body_length_le fun hpass => ?_
    have hlen := len_le_mtl_of_readCheck hpass
    simp only [List.length_take]
    omega
  | write addr data => exact Handler.guarded_body_length_le fun _ => Nat.zero_le _
  | crc start stop => exact Handler.guarded_body_length_le fun _ => by simp
  | erase start stop => exact Handler.guarded_body_length_le fun _ => Nat.zero_le _
  | erasechip => exact Nat.zero_le _

theorem dispatch_body_length_le (cfg : Cfg) (f reads : List Byte) :
    ((dispatch cfg f).body reads).length ≤ max 7 cfg.mtl.toNat := by
  unfold dispatch
  cases decodeCommand f with
  | ok i => exact handlerOf_body_length_le cfg i reads
  | error e => exact Nat.zero_le _

/-- Settles O5: a packet is its three header bytes and its payload, so the bounds of R10 are bounds on payloads. -/
theorem packetSizesAreBounded : Obligations.PacketSizesAreBounded := by
  intro cfg _
  refine ⟨fun i _ hdata => ?command, fun f reads => ?reply⟩
  case command =>
    have hpayload := payload_length_le cfg i hdata
    simp only [encode, buildPacket_length, Cfg.maxPacket, hdr]
    omega
  case reply =>
    have hreply := (dispatch cfg f).reply_length_bounds reads
    have hbody := dispatch_body_length_le cfg f reads
    simp only [Cfg.maxReply, Cfg.maxPacket, hdr]
    omega

end Machine
end Sys2Proof
end

section
/-! PROOFS. What one step of the machine can do, as a relation with one constructor for each thing an agent does (10_state.md
R22, 43_dispatcher.md R106 to R108), and what every step leaves: the configuration and the trace (R26, R36). -/

namespace Sys2Proof.Machine

/-- One move of the machine, after the environment's turn was taken from the schedule. The conditions of a constructor are
those under which the model makes the move; `move_of_step` ties the relation to `step`. -/
inductive Move : State → State → Prop where
  /-- nobody moves, or the agent that could has nothing to do (R42, R116) -/
  | wait (s : State) : Move s s
  /-- the event `Reset` (R141) -/
  | reset (s : State) : Move s (resetEvent s)
  /-- a byte that completes no frame (R106) -/
  | receive {s : State} {b : Byte} {rest : List Byte} {d : Decoder} {err : Option FramingError}
      (phase : s.phase = .recv) (offered : s.rx = b :: rest) (decoded : decStep s.cfg s.dec b = some ⟨d, none, err⟩) :
      Move s { s with
        rx := rest
        dec := d
        trace := s.trace ++ (.rxByte b :: (err.map .framingError).toList) }
  /-- a byte that completes the frame in the buffer, which goes to the dispatcher (R77, R106) -/
  | handover {s : State} {b : Byte} {rest : List Byte} (phase : s.phase = .recv) (offered : s.rx = b :: rest)
      (decoded : decStep s.cfg s.dec b = some ⟨Decoder.fresh, some s.dec.buf, none⟩) :
      Move s { s with
        rx := rest
        dec := Decoder.fresh
        trace := s.trace ++ [.rxByte b]
        phase := .exec
        cmd := some s.dec.buf
        exec := some Progress.start }
  /-- the flash driver answers the outstanding request (R107, R42) -/
  | respond {s : State} {f : List Byte} {p : Progress} {q : FlashReq} (phase : s.phase = .exec) (cmd : s.cmd = some f)
      (progress : s.exec = some p) (outstanding : s.flashReq = some q) (legal : q.legal s.cfg = true) :
      Move s (respond q p s)
  /-- the block issues its handler's next transaction (R107) -/
  | issue {s : State} {f : List Byte} {p : Progress} {q : FlashReq} (phase : s.phase = .exec) (cmd : s.cmd = some f)
      (progress : s.exec = some p) (idle : s.flashReq = none) (next : (dispatch s.cfg f).ops[p.issued]? = some q) :
      Move s (issue q p s)
  /-- the handler's final step (R107) -/
  | finish {s : State} {f : List Byte} {p : Progress} (phase : s.phase = .exec) (cmd : s.cmd = some f)
      (progress : s.exec = some p) (idle : s.flashReq = none) (done : (dispatch s.cfg f).ops[p.issued]? = none) :
      Move s (finish (dispatch s.cfg f) p s)
  /-- a byte of the reply goes out (R108) -/
  | send {s : State} {b : Byte} {rest : List Byte} (phase : s.phase = .send) (queued : s.txQ = b :: rest) :
      Move s { s with
        txQ := rest
        phase := if rest = [] then .recv else .send
        trace := s.trace ++ [.txByte b] }

theorem move_of_recvStep {s t : State} (phase : s.phase = .recv) (hn : recvStep s = .next t) : Move s t := by
  obtain ⟨-, rfl⟩ | ⟨b, rest, ⟨d, emit, err⟩, offered, decoded, rfl⟩ := recvStep_cases hn
  · exact .wait _
  · cases emit with
    | none => exact .receive phase offered decoded
    | some f =>
      obtain ⟨-, -, hemit, -⟩ := decStep_cases decoded
      obtain ⟨rfl, rfl, hf⟩ := hemit nofun
      cases hf
      exact .handover phase offered decoded

theorem move_of_execStep {s t : State} (phase : s.phase = .exec) (hn : execStep s = .next t) : Move s t := by
  obtain ⟨f, cmd, hrun⟩ := execStep_cases hn
  obtain ⟨p, progress, ⟨q, outstanding, legal, rfl⟩ | ⟨q, idle, next, rfl⟩ | ⟨idle, done, rfl⟩⟩ :=
    runHandler_cases hrun
  · exact .respond phase cmd progress outstanding legal
  · exact .issue phase cmd progress idle next
  · exact .finish phase cmd progress idle done

theorem move_of_sendStep {s t : State} (phase : s.phase = .send) (hn : sendStep s = .next t) : Move s t := by
  obtain ⟨-, rfl⟩ | ⟨b, rest, queued, rfl⟩ := sendStep_cases hn
  · exact .wait _
  · exact .send phase queued

/-- A step that answers a next state is a move under a legal configuration, from the state whose schedule the turn used up. -/
theorem move_of_step {s t : State} (hn : step s = .next t) :
    s.cfg.legal = true ∧ ∃ turns, Move { s with sched := turns } t := by
  obtain ⟨hlegal, turns, u, rfl, rfl | rfl | ⟨phase, hu⟩ | ⟨phase, hu⟩ | ⟨phase, hu⟩⟩ := step_cases hn
  · exact ⟨hlegal, turns, .wait _⟩
  · exact ⟨hlegal, turns, .reset _⟩
  · exact ⟨hlegal, turns, move_of_recvStep phase hu⟩
  · exact ⟨hlegal, turns, move_of_execStep phase hu⟩
  · exact ⟨hlegal, turns, move_of_sendStep phase hu⟩

theorem Move.cfg_eq {s t : State} (hm : Move s t) : t.cfg = s.cfg := by
  cases hm <;> rfl

theorem Move.trace_extends {s t : State} (hm : Move s t) : ∃ es, t.trace = s.trace ++ es := by
  cases hm with
  | wait | reset | finish => exact ⟨[], (List.append_nil _).symm⟩
  | receive | handover | respond | issue | send => exact ⟨_, rfl⟩

/-- Settles O56: no move touches the configuration, and each adds its events at the end of the trace. -/
theorem stepsKeepTheConfigurationAndTheTrace : Obligations.StepsKeepTheConfigurationAndTheTrace := by
  intro s t hn
  obtain ⟨-, turns, hm⟩ := move_of_step hn
  exact ⟨hm.cfg_eq, hm.trace_extends⟩

end Sys2Proof.Machine
end

section
/-! PROOFS. The transactions of the handlers: each request stays inside the chip (20_memory.md R43, 42_validator.md R105), and a
handler that performed all of its transactions has left software-ID mode (44_commands.md R118). -/

namespace Sys2Proof.Machine

/-! ### The requests of a handler's list -/

theorem mem_readOps {start n : Nat} {q : FlashReq} : q ∈ readOps start n ↔ ∃ i < n, q = .readByte (start + i) := by
  simp [readOps, eq_comm]

theorem mem_writeOps {addr : Nat} {data : List Byte} {q : FlashReq} :
    q ∈ writeOps addr data ↔ ∃ i, ∃ h : i < data.length, q = .writeByte (addr + i) data[i] := by
  simp [writeOps, List.mem_mapIdx, eq_comm]

theorem mem_eraseOps {cfg : Cfg} {start stop : Nat} {q : FlashReq} :
    q ∈ eraseOps cfg start stop ↔
      ∃ i < (stop - start) / cfg.sectorSize.toNat, q = .eraseSector (start + i * cfg.sectorSize.toNat) := by
  simp [eraseOps, eq_comm]

/-- A guarded handler has a transaction only when its check passed (R103, R125). -/
theorem Handler.mem_guarded_ops {check : StatusCode} {h : Handler} {q : FlashReq} (hq : q ∈ (h.guarded check).ops) :
    check = .none ∧ q ∈ h.ops := by
  obtain ⟨hpass, heq⟩ | ⟨-, heq⟩ := Handler.guarded_cases check h
  · exact ⟨hpass, heq ▸ hq⟩
  · rw [heq] at hq
    cases hq

/-! ### What a passed check says -/

theorem readCheck_range {cfg : Cfg} {addr len : Nat} (h : readCheck cfg addr len = .none) :
    addr + len ≤ cfg.romSize.toNat := by
  simp only [readCheck] at h
  split at h <;> simp_all

theorem writeCheck_range {cfg : Cfg} {addr n : Nat} (h : writeCheck cfg addr n = .none) :
    addr + n ≤ cfg.romSize.toNat := by
  simp only [writeCheck] at h
  split at h <;> simp_all

theorem crcCheck_range {cfg : Cfg} {s e : Nat} (h : crcCheck cfg s e = .none) : e ≤ cfg.romSize.toNat := by
  simp only [crcCheck] at h
  split at h <;> simp_all

theorem eraseCheck_range {cfg : Cfg} {s e : Nat} (h : eraseCheck cfg s e = .none) :
    e ≤ cfg.romSize.toNat ∧ s % cfg.sectorSize.toNat = 0 := by
  simp only [eraseCheck] at h
  split at h <;> simp_all

/-! ### Requests inside the chip -/

/-- An address inside the chip is a u32, so the request carries it unchanged. -/
theorem toNat_addr_of_lt_romSize {cfg : Cfg} {a : Nat} (h : a < cfg.romSize.toNat) : (BitVec.ofNat 32 a).toNat = a := by
  rw [BitVec.toNat_ofNat, Nat.mod_eq_of_lt (h.trans cfg.romSize.isLt)]

theorem readByte_legal {cfg : Cfg} {a : Nat} (h : a < cfg.romSize.toNat) : (FlashReq.readByte a).legal cfg = true := by
  simpa only [FlashReq.legal, FlashReq.readByte, toNat_addr_of_lt_romSize h, decide_eq_true_eq] using h

theorem writeByte_legal {cfg : Cfg} {a : Nat} {v : Byte} (h : a < cfg.romSize.toNat) :
    (FlashReq.writeByte a v).legal cfg = true := by
  simpa only [FlashReq.legal, FlashReq.writeByte, toNat_addr_of_lt_romSize h, decide_eq_true_eq] using h

theorem eraseSector_legal {cfg : Cfg} {a : Nat} (h : a < cfg.romSize.toNat) (hbase : a % cfg.sectorSize.toNat = 0) :
    (FlashReq.eraseSector a).legal cfg = true := by
  simpa only [FlashReq.legal, FlashReq.eraseSector, toNat_addr_of_lt_romSize h, Bool.and_eq_true, decide_eq_true_eq]
    using ⟨h, hbase⟩

/-- A sector that `EraseSector` steps to begins before the range's end. -/
theorem sector_base_lt {start stop size i : Nat} (hi : i < (stop - start) / size) : start + i * size < stop := by
  by_contra hge
  have hle : stop - start ≤ size * i := by
    rw [Nat.mul_comm]
    omega
  exact absurd hi (Nat.not_lt.mpr (Nat.div_le_of_le_mul hle))

/-- Every transaction of a command is inside the chip: a validator check stands before all that carry an address. -/
theorem handlerOf_ops_legal (cfg : Cfg) (i : Instr) {q : FlashReq} (hq : q ∈ (handlerOf cfg i).ops) :
    q.legal cfg = true := by
  cases i with
  | ping => cases hq
  | identify =>
    simp only [handlerOf, identifyHandler, List.mem_cons, List.not_mem_nil, or_false] at hq
    obtain rfl | rfl | rfl | rfl := hq <;> rfl
  | read addr len =>
    obtain ⟨hpass, hmem⟩ := Handler.mem_guarded_ops hq
    obtain ⟨k, hk, rfl⟩ := mem_readOps.mp hmem
    have := readCheck_range hpass
    exact readByte_legal (by omega)
  | write addr data =>
    obtain ⟨hpass, hmem⟩ := Handler.mem_guarded_ops hq
    obtain ⟨k, hk, rfl⟩ := mem_writeOps.mp hmem
    split at hpass
    · cases hpass
    · have := writeCheck_range hpass
      exact writeByte_legal (by omega)
  | crc start stop =>
    obtain ⟨hpass, hmem⟩ := Handler.mem_guarded_ops hq
    obtain ⟨k, hk, rfl⟩ := mem_readOps.mp hmem
    have := crcCheck_range hpass
    exact readByte_legal (by omega)
  | erase start stop =>
    obtain ⟨hpass, hmem⟩ := Handler.mem_guarded_ops hq
    obtain ⟨k, hk, rfl⟩ := mem_eraseOps.mp hmem
    obtain ⟨hend, hbase⟩ := eraseCheck_range hpass
    refine eraseSector_legal ((sector_base_lt hk).trans_le hend) ?_
    rw [Nat.add_mul_mod_self_right, hbase]
  | erasechip =>
    obtain rfl := List.mem_singleton.mp hq
    rfl

theorem dispatch_ops_legal (cfg : Cfg) (f : List Byte) {q : FlashReq} (hq : q ∈ (dispatch cfg f).ops) :
    q.legal cfg = true := by
  unfold dispatch at hq
  cases hdec : decodeCommand f with
  | ok i => exact handlerOf_ops_legal cfg i (by simpa only [hdec] using hq)
  | error e =>
    rw [hdec] at hq
    cases hq

/-! ### Software-ID mode -/

theorem idModeAfterAll_concat (ops : List FlashReq) (q : FlashReq) :
    idModeAfterAll (ops ++ [q]) = idModeAfter q.op (idModeAfterAll ops) := by
  simp [idModeAfterAll]

/-- Only `enterId` enters ID mode (R41). -/
theorem idModeAfterAll_of_no_enterId {ops : List FlashReq} (h : ∀ q ∈ ops, q.op ≠ .enterId) :
    idModeAfterAll ops = false := by
  induction ops using List.reverseRecOn with
  | nil => rfl
  | append_singleton ops q ih =>
    have hops : idModeAfterAll ops = false := ih fun r hr => h r (List.mem_append_left _ hr)
    have hq : q.op ≠ .enterId := h q (by simp)
    rw [idModeAfterAll_concat, hops]
    cases hop : q.op <;> simp_all [idModeAfter]

theorem idModeAfterAll_guarded {check : StatusCode} {h : Handler} (hops : ∀ q ∈ h.ops, q.op ≠ .enterId) :
    idModeAfterAll (h.guarded check).ops = false :=
  idModeAfterAll_of_no_enterId fun q hq => hops q (Handler.mem_guarded_ops hq).2

/-- `Identify` is the only command that enters ID mode, and it leaves it last (R118). -/
theorem idModeAfterAll_handlerOf (cfg : Cfg) (i : Instr) : idModeAfterAll (handlerOf cfg i).ops = false := by
  cases i with
  | ping | identify | erasechip => rfl
  | read | crc =>
    refine idModeAfterAll_guarded fun q hq => ?_
    obtain ⟨k, -, rfl⟩ := mem_readOps.mp hq
    exact nofun
  | write =>
    refine idModeAfterAll_guarded fun q hq => ?_
    obtain ⟨k, -, rfl⟩ := mem_writeOps.mp hq
    exact nofun
  | erase =>
    refine idModeAfterAll_guarded fun q hq => ?_
    obtain ⟨k, -, rfl⟩ := mem_eraseOps.mp hq
    exact nofun

theorem idModeAfterAll_dispatch (cfg : Cfg) (f : List Byte) : idModeAfterAll (dispatch cfg f).ops = false := by
  unfold dispatch
  cases decodeCommand f with
  | ok i => exact idModeAfterAll_handlerOf cfg i
  | error e => rfl

@[simp] theorem Flash.after_idMode (cfg : Cfg) (q : FlashReq) (f : Flash) :
    (f.after cfg q).idMode = idModeAfter q.op f.idMode := rfl

@[simp] theorem Flash.interrupt_idMode (cfg : Cfg) (q : FlashReq) (f : Flash) : (f.interrupt cfg q).idMode = false := by
  unfold Flash.interrupt
  cases f.array <;> rfl

/-- After a `Reset` the driver is outside ID mode, with a request outstanding and without (R142). -/
@[simp] theorem flashAtReset_idMode (s : State) : (flashAtReset s).idMode = false := by
  unfold flashAtReset
  cases s.flashReq with
  | none => rfl
  | some q => exact Flash.interrupt_idMode s.cfg q s.flash

end Sys2Proof.Machine
end

section
/-! PROOFS. The invariants (a) to (e) of 10_state.md R35: they hold after reset and every move keeps them. -/

namespace Sys2Proof.Machine

/-- The invariants say nothing about the schedule. -/
theorem WellShaped.withSched {s : State} (hs : WellShaped s) (turns : List Turn) : WellShaped { s with sched := turns } :=
  ⟨hs.bufferBounded, hs.idleEmpty, hs.decoderQuiet, hs.replySuffix, hs.recvEmpty⟩

/-- A block in `RECV` with nothing received and nothing to send meets (a) to (e), whatever the rest of the state. -/
theorem wellShaped_of_fresh {s : State} (hphase : s.phase = .recv) (hdec : s.dec = Decoder.fresh) (htx : s.txQ = []) :
    WellShaped s where
  bufferBounded := by simp [hdec, Decoder.fresh, Decoder.rxLen]
  idleEmpty := fun _ => by simp [hdec, Decoder.fresh, Decoder.rxLen]
  decoderQuiet := fun hne => absurd hphase hne
  replySuffix := fun hsend => by simp [hphase] at hsend
  recvEmpty := fun _ => htx

/-- Settles O51: reset is such a block. -/
theorem shapeHoldsAtReset : Obligations.ShapeHoldsAtReset :=
  fun _ _ _ _ => wellShaped_of_fresh rfl rfl rfl

/-- (a) and (b) through one byte: the decoder empties its buffer, keeps it, or appends one byte where there was room
(R75 to R82). -/
theorem decStep_keeps_buffer_shape {cfg : Cfg} {d : Decoder} {b : Byte} {o : DecOut} (h : decStep cfg d b = some o)
    (hbound : d.rxLen ≤ cfg.maxPacket) (hidle : d.st = .idle → d.rxLen = 0) :
    o.dec.rxLen ≤ cfg.maxPacket ∧ (o.dec.st = .idle → o.dec.rxLen = 0) := by
  obtain ⟨-, hempty | ⟨hsame, -⟩ | ⟨hbuf, hescaped⟩ | ⟨v, happended, hroom⟩, -, -⟩ := decStep_cases h
  · simp [Decoder.rxLen, hempty]
  · rw [hsame]
    exact ⟨hbound, hidle⟩
  · exact ⟨by rwa [Decoder.rxLen, hbuf], by simp [hescaped]⟩
  · rw [happended]
    exact ⟨by simpa [Decoder.rxLen] using hroom, nofun⟩

/-- (c) and (d) at the end of a handler: the whole reply frame is queued, and the block builds no reply above `MAX_REPLY`. -/
theorem WellShaped.finish {s : State} (hs : WellShaped s) (hlegal : s.cfg.legal = true) (hphase : s.phase = .exec)
    (f : List Byte) (p : Progress) : WellShaped (finish (dispatch s.cfg f) p s) where
  bufferBounded := hs.bufferBounded
  idleEmpty := hs.idleEmpty
  decoderQuiet := fun _ => hs.decoderQuiet (by simp [hphase])
  replySuffix := fun _ => by
    obtain ⟨-, hreplies⟩ := packetSizesAreBounded s.cfg hlegal
    obtain ⟨-, hle, -⟩ := hreplies f p.reads
    exact ⟨_, _, _, List.suffix_rfl, hle⟩
  recvEmpty := nofun

/-- (c) to (e) while the reply goes out: what is left of a suffix is one, and the last byte returns the block to `RECV`. -/
theorem WellShaped.send {s : State} (hs : WellShaped s) {b : Byte} {rest : List Byte} (hphase : s.phase = .send)
    (hqueued : s.txQ = b :: rest) (events : List Event) :
    WellShaped { s with txQ := rest, phase := if rest = [] then .recv else .send, trace := events } where
  bufferBounded := hs.bufferBounded
  idleEmpty := hs.idleEmpty
  decoderQuiet := fun _ => hs.decoderQuiet (by simp [hphase])
  replySuffix := fun _ => by
    obtain ⟨op, st, body, hsuffix, hle⟩ := hs.replySuffix hphase
    rw [hqueued] at hsuffix
    exact ⟨op, st, body, (List.suffix_cons b rest).trans hsuffix, hle⟩
  recvEmpty := fun hrecv => by simpa using hrecv

theorem Move.wellShaped {s t : State} (hm : Move s t) (hlegal : s.cfg.legal = true) (hs : WellShaped s) :
    WellShaped t := by
  cases hm with
  | wait => exact hs
  | reset => exact wellShaped_of_fresh rfl rfl rfl
  | receive phase _ decoded =>
    obtain ⟨hbound, hidle⟩ := decStep_keeps_buffer_shape decoded hs.bufferBounded hs.idleEmpty
    exact ⟨hbound, hidle, fun hne => absurd phase hne, hs.replySuffix, hs.recvEmpty⟩
  | handover => exact ⟨Nat.zero_le _, fun _ => rfl, fun _ => ⟨rfl, rfl⟩, nofun, nofun⟩
  | respond | issue => exact ⟨hs.bufferBounded, hs.idleEmpty, hs.decoderQuiet, hs.replySuffix, hs.recvEmpty⟩
  | finish phase => exact hs.finish hlegal phase _ _
  | send phase queued => exact hs.send phase queued _

/-- Settles O52, by the moves of a step. -/
theorem everyStepKeepsTheShape : Obligations.EveryStepKeepsTheShape := by
  intro s t hs hn
  obtain ⟨hlegal, turns, hm⟩ := move_of_step hn
  exact hm.wellShaped hlegal (hs.withSched turns)

end Sys2Proof.Machine
end

section
/-! PROOFS. The safety invariant: it holds after reset, every move keeps it, and from a safe state a step is no fault and no
refusal (10_state.md R34, 20_memory.md R43). -/

namespace Sys2Proof.Machine

/-! ### State that holds a value (R34) -/

/-- Outside `EXEC` there is no command in progress and no request outstanding. -/
theorem Held.nothing_outside_exec {s : State} (hs : Held s) (hphase : s.phase ≠ .exec) :
    s.cmd = none ∧ s.exec = none ∧ s.flashReq = none := by
  refine ⟨by simpa [hphase] using hs.cmdHeld, by simpa [hphase] using hs.execHeld, ?_⟩
  by_contra hreq
  exact hphase (hs.requestHeld (Option.isSome_iff_ne_none.mpr hreq))

/-- In `EXEC` there is a command and its handler's progress. -/
theorem Held.command_in_exec {s : State} (hs : Held s) (hphase : s.phase = .exec) :
    ∃ f p, s.cmd = some f ∧ s.exec = some p := by
  have hcmd : s.cmd.isSome = true := by simp [hs.cmdHeld, hphase]
  have hexec : s.exec.isSome = true := by simp [hs.execHeld, hphase]
  obtain ⟨f, hf⟩ := Option.isSome_iff_exists.mp hcmd
  obtain ⟨p, hp⟩ := Option.isSome_iff_exists.mp hexec
  exact ⟨f, p, hf, hp⟩

theorem Held.withSched {s : State} (hs : Held s) (turns : List Turn) : Held { s with sched := turns } :=
  ⟨hs.decoderUsed, hs.phaseUsed, hs.cmdHeld, hs.execHeld, hs.requestHeld, hs.replyHeld⟩

/-- A block in `RECV` that holds nothing of a command reads no absent state. -/
theorem held_of_idle {s : State} (hdec : s.dec.st ≠ .unused) (hphase : s.phase = .recv) (hcmd : s.cmd = none)
    (hexec : s.exec = none) (hreq : s.flashReq = none) : Held s := by
  constructor <;> simp [hdec, hphase, hcmd, hexec, hreq]

theorem Move.held {s t : State} (hm : Move s t) (hs : Held s) : Held t := by
  cases hm with
  | wait => exact hs
  | reset => exact held_of_idle nofun rfl rfl rfl rfl
  | receive phase _ decoded =>
    obtain ⟨hused, -⟩ := decStep_cases decoded
    exact ⟨hused, hs.phaseUsed, hs.cmdHeld, hs.execHeld, hs.requestHeld, hs.replyHeld⟩
  | handover => exact ⟨nofun, nofun, rfl, rfl, fun _ => rfl, nofun⟩
  | respond phase | issue phase =>
    exact ⟨hs.decoderUsed, hs.phaseUsed, hs.cmdHeld, by simp [phase], fun _ => phase, hs.replyHeld⟩
  | finish _ _ _ idle => exact ⟨hs.decoderUsed, nofun, rfl, rfl, by simp [idle], fun _ => List.cons_ne_nil _ _⟩
  | @send b rest phase queued =>
    obtain ⟨hcmd, hexec, hreq⟩ := hs.nothing_outside_exec (by simp [phase])
    by_cases hlast : rest = []
    · simpa [hlast] using held_of_idle (s := { s with txQ := [], phase := .recv, trace := s.trace ++ [.txByte b] })
        hs.decoderUsed rfl hcmd hexec hreq
    · constructor <;> simp [hlast, hcmd, hexec, hreq, hs.decoderUsed]

/-! ### The handler's track (R24, R107) -/

@[simp] theorem performedCount_none (p : Progress) : performedCount p none = p.issued := rfl

@[simp] theorem performedCount_some (p : Progress) (q : FlashReq) : performedCount p (some q) = p.issued - 1 := rfl

/-- A handler just started is on its track: nothing issued, nothing read, ID mode off. -/
theorem onTrack_start {s : State} (h : Handler) (hreq : s.flashReq = none) (hid : s.flash.idMode = false) :
    OnTrack s h Progress.start where
  issuedBounded := Nat.zero_le _
  outstandingIsLast := by simp [hreq]
  readsCounted := by simp [hreq, Progress.start]
  idModeTracked := by simp [hreq, hid, Progress.start, idModeAfterAll]

/-- Issuing the next transaction: one more is issued, and none more performed. -/
theorem OnTrack.issue {s : State} {h : Handler} {p : Progress} {q : FlashReq} (ht : OnTrack s h p)
    (hreq : s.flashReq = none) (hnext : h.ops[p.issued]? = some q) :
    OnTrack (issue q p s) h ⟨p.issued + 1, p.reads⟩ where
  issuedBounded := (List.getElem?_eq_some_iff.mp hnext).1
  outstandingIsLast := by simpa using hnext
  readsCounted := by simpa [hreq] using ht.readsCounted
  idModeTracked := by simpa [hreq] using ht.idModeTracked

/-- The transactions issued, with the outstanding one split off. -/
theorem OnTrack.take_issued {s : State} {h : Handler} {p : Progress} {q : FlashReq} (ht : OnTrack s h p)
    (hreq : s.flashReq = some q) : h.ops.take p.issued = h.ops.take (p.issued - 1) ++ [q] := by
  obtain ⟨hpos, hlast⟩ := ht.outstandingIsLast q hreq
  obtain ⟨n, hn⟩ := Nat.exists_eq_add_of_le' hpos
  simp only [hn, Nat.add_sub_cancel] at hlast ⊢
  rw [List.take_add_one, hlast]
  rfl

/-- The response: the outstanding transaction is performed, and a read-type one has returned its byte. -/
theorem OnTrack.respond {s : State} {h : Handler} {p : Progress} {q : FlashReq} (ht : OnTrack s h p)
    (hreq : s.flashReq = some q) :
    OnTrack (respond q p s) h ⟨p.issued, p.reads ++ (s.flash.answer s.cfg q).toList⟩ where
  issuedBounded := ht.issuedBounded
  outstandingIsLast := by simp
  readsCounted := by
    have hreads := ht.readsCounted
    simp only [hreq, performedCount_some] at hreads
    simp [ht.take_issued hreq, hreads, Option.length_toList, Flash.answer_isSome, List.countP_cons]
  idModeTracked := by
    have hid := ht.idModeTracked
    simp only [hreq, performedCount_some] at hid
    simp [ht.take_issued hreq, hid, idModeAfterAll_concat]

/-- The outstanding request is one of the handler's. -/
theorem OnTrack.outstanding_mem {s : State} {h : Handler} {p : Progress} {q : FlashReq} (ht : OnTrack s h p)
    (hreq : s.flashReq = some q) : q ∈ h.ops := by
  obtain ⟨-, hlast⟩ := ht.outstandingIsLast q hreq
  exact List.mem_of_getElem? hlast

/-- At the final step every transaction was performed. -/
theorem OnTrack.idMode_at_end {s : State} {h : Handler} {p : Progress} (ht : OnTrack s h p) (hreq : s.flashReq = none)
    (hdone : h.ops[p.issued]? = none) : s.flash.idMode = idModeAfterAll h.ops := by
  have hid := ht.idModeTracked
  rwa [hreq, performedCount_none, List.take_of_length_le (List.getElem?_eq_none_iff.mp hdone)] at hid

/-! ### Requests in the trace (R43) -/

theorem requestsInChip_append {cfg : Cfg} {a b : List Event} :
    requestsInChip cfg (a ++ b) ↔ requestsInChip cfg a ∧ requestsInChip cfg b := by
  simp only [requestsInChip, List.mem_append, or_imp, forall_and]

/-- Receiving a byte, with a framing error or without, requests nothing of the flash. -/
theorem requestsInChip_received (cfg : Cfg) (b : Byte) (err : Option FramingError) :
    requestsInChip cfg (.rxByte b :: (err.map Event.framingError).toList) := by
  cases err <;> simp [requestsInChip]

theorem Move.requestsInChip {s t : State} (hm : Move s t) (hs : requestsInChip s.cfg s.trace) :
    requestsInChip t.cfg t.trace := by
  cases hm with
  | wait | reset | finish => exact hs
  | receive => exact requestsInChip_append.mpr ⟨hs, requestsInChip_received _ _ _⟩
  | handover => exact requestsInChip_append.mpr ⟨hs, requestsInChip_received _ _ none⟩
  | respond | send => exact requestsInChip_append.mpr ⟨hs, by simp [Machine.requestsInChip]⟩
  | issue _ _ _ _ next =>
    have hq := dispatch_ops_legal _ _ (List.mem_of_getElem? next)
    exact requestsInChip_append.mpr ⟨hs, by simpa [Machine.requestsInChip] using hq⟩

/-! ### The invariant -/

theorem Safe.withSched {s : State} (hs : Safe s) (turns : List Turn) : Safe { s with sched := turns } where
  configLegal := hs.configLegal
  held := hs.held.withSched turns
  onTrack := fun f p hf hp =>
    have ht := hs.onTrack f p hf hp
    ⟨ht.issuedBounded, ht.outstandingIsLast, ht.readsCounted, ht.idModeTracked⟩
  idModeLeft := hs.idModeLeft
  inChip := hs.inChip

/-- Settles O53: nothing is held, no handler runs, ID mode is off and the trace is empty. -/
theorem safetyHoldsAtReset : Obligations.SafetyHoldsAtReset := fun _ _ _ _ hlegal =>
  { configLegal := hlegal
    held := held_of_idle nofun rfl rfl rfl rfl
    onTrack := nofun
    idModeLeft := fun _ => rfl
    inChip := nofun }

theorem Move.onTrack {s t : State} (hm : Move s t) (hs : Safe s) {f : List Byte} {p : Progress} (hf : t.cmd = some f)
    (hp : t.exec = some p) : OnTrack t (dispatch t.cfg f) p := by
  cases hm with
  | wait => exact hs.onTrack f p hf hp
  | reset | finish => cases hf
  | receive phase | send phase =>
    obtain ⟨hcmd, -⟩ := hs.held.nothing_outside_exec (by simp [phase])
    exact absurd hf (by simp [hcmd])
  | handover phase =>
    obtain ⟨-, -, hreq⟩ := hs.held.nothing_outside_exec (by simp [phase])
    cases hp
    exact onTrack_start _ hreq (hs.idModeLeft (by simp [phase]))
  | respond _ _ progress outstanding =>
    cases hp
    exact (hs.onTrack f _ hf progress).respond outstanding
  | issue _ cmd progress idle next =>
    cases hp
    obtain rfl := Option.some.inj (cmd.symm.trans hf)
    exact (hs.onTrack _ _ hf progress).issue idle next

theorem Move.idModeLeft {s t : State} (hm : Move s t) (hs : Safe s) (hphase : t.phase ≠ .exec) :
    t.flash.idMode = false := by
  cases hm with
  | wait => exact hs.idModeLeft hphase
  | reset => exact flashAtReset_idMode s
  | receive phase | send phase => exact hs.idModeLeft (by simp [phase])
  | handover => exact absurd rfl hphase
  | respond phase | issue phase => exact absurd phase hphase
  | finish _ cmd progress idle done =>
    have hid := (hs.onTrack _ _ cmd progress).idMode_at_end idle done
    exact hid.trans (idModeAfterAll_dispatch _ _)

theorem Move.safe {s t : State} (hm : Move s t) (hs : Safe s) : Safe t where
  configLegal := hm.cfg_eq ▸ hs.configLegal
  held := hm.held hs.held
  onTrack := fun _ _ hf hp => hm.onTrack hs hf hp
  idModeLeft := hm.idModeLeft hs
  inChip := hm.requestsInChip hs.inChip

/-- Settles O54, by the moves of a step. -/
theorem everyStepKeepsSafety : Obligations.EveryStepKeepsSafety := by
  intro s t hs hn
  obtain ⟨-, turns, hm⟩ := move_of_step hn
  exact hm.safe (hs.withSched turns)

/-! ### No fault and no refusal -/

/-- The decoder takes a byte in every used encoding of `dec_state` (R21). -/
theorem decStep_answers {cfg : Cfg} {d : Decoder} (hused : d.st ≠ .unused) (b : Byte) : ∃ o, decStep cfg d b = some o := by
  unfold decStep
  cases hst : d.st with
  | idle | inFrame | escaped => exact ⟨_, rfl⟩
  | unused => exact absurd hst hused

theorem recvStep_answers {s : State} (hs : Safe s) : ∃ t, recvStep s = .next t := by
  unfold recvStep
  cases s.rx with
  | nil => exact ⟨s, rfl⟩
  | cons b rest =>
    obtain ⟨o, ho⟩ := decStep_answers (cfg := s.cfg) hs.held.decoderUsed b
    exact ⟨received b o { s with rx := rest }, by simp only [ho]⟩

/-- In `EXEC` a handler on its track has its request answered, issues the next one, or finishes (R107). -/
theorem execStep_answers {s : State} (hs : Safe s) (hphase : s.phase = .exec) : ∃ t, execStep s = .next t := by
  obtain ⟨f, p, hf, hp⟩ := hs.held.command_in_exec hphase
  rw [execStep_eq_runHandler hf]
  cases hreq : s.flashReq with
  | some q =>
    have hlegal := dispatch_ops_legal s.cfg f ((hs.onTrack f p hf hp).outstanding_mem hreq)
    exact ⟨_, runHandler_respond hp hreq hlegal⟩
  | none =>
    cases hop : (dispatch s.cfg f).ops[p.issued]? with
    | some q => exact ⟨_, runHandler_issue hp hreq hop⟩
    | none => exact ⟨_, runHandler_finish hp hreq hop⟩

theorem sendStep_answers (s : State) : ∃ t, sendStep s = .next t := by
  unfold sendStep
  cases s.txQ <;> exact ⟨_, rfl⟩

theorem phaseStep_answers {s : State} (hs : Safe s) : ∃ t, phaseStep s = .next t := by
  unfold phaseStep
  cases hphase : s.phase with
  | recv => exact recvStep_answers hs
  | exec => exact execStep_answers hs hphase
  | send => exact sendStep_answers s
  | unused => exact absurd hphase hs.held.phaseUsed

/-- Settles O55: a wait and a `Reset` always answer, and so does the agent that can move. -/
theorem safeStatesAlwaysStep : Obligations.SafeStatesAlwaysStep := by
  intro s hs
  unfold step turn
  rw [if_pos hs.configLegal]
  cases s.sched with
  | nil => exact phaseStep_answers hs
  | cons turn rest =>
    cases turn with
    | go => exact phaseStep_answers (hs.withSched rest)
    | stall | reset => exact ⟨_, rfl⟩

end Sys2Proof.Machine
end

section
/-! PROOFS. The state after reset (10_state.md R37), the faults on absent state (R21, R22, R34), and the refusal of an illegal
configuration (R27). -/

namespace Sys2Proof.Machine

/-- Settles O48: the reset state under any configuration and array, of which `State.reset` is one. -/
theorem resetStateIsAsStated : Obligations.ResetStateIsAsStated := by
  unfold Obligations.ResetStateIsAsStated
  intro asStated
  have hreset (cfg : Cfg) (array : FlashArray) : asStated (State.resetWith cfg array) :=
    ⟨rfl, rfl, rfl, rfl, rfl, rfl, rfl, rfl, rfl, rfl⟩
  exact ⟨fun cfg array => ⟨hreset cfg array, rfl⟩, hreset Cfg.vectors (.drawn [])⟩

/-- With no turn scheduled, a step is the step of the phase. -/
theorem step_eq_phaseStep {s : State} (hlegal : s.cfg.legal = true) (hsched : s.sched = []) : step s = phaseStep s := by
  simp [step, turn, hlegal, hsched]

/-- A handler that lost its progress faults (R34). -/
theorem runHandler_of_exec_none {s : State} (h : Handler) (hexec : s.exec = none) :
    runHandler h s = .fault .execAbsent := by
  simp [runHandler, hexec]

/-- Settles O44, one clause for each place where an absent state would be read. -/
theorem absentStateFaults : Obligations.AbsentStateFaults := by
  intro s hlegal hsched
  rw [step_eq_phaseStep hlegal hsched]
  refine ⟨fun hphase => ?phase, fun hphase hdec hrx => ?decoder, fun hphase hcmd => ?cmd, fun f hphase hcmd hexec => ?exec⟩
  case phase => simp [phaseStep, hphase]
  case decoder =>
    obtain ⟨b, rest, hcons⟩ := List.exists_cons_of_ne_nil hrx
    simp [phaseStep, hphase, recvStep, hcons, decStep, hdec]
  case cmd => simp [phaseStep, hphase, execStep, hcmd]
  case exec =>
    simp [phaseStep, hphase, execStep_eq_runHandler hcmd, runHandler_of_exec_none _ hexec]

theorem step_refused_of_illegal {s : State} (h : ¬ s.cfg.legal = true) : step s = .refused .illegalConfig := by
  rw [step, turn, if_neg h]

/-- Settles O46: each example breaks one constraint that a legal configuration meets. -/
theorem illegalConfigurationIsRefused : Obligations.IllegalConfigurationIsRefused := by
  intro s
  refine ⟨fun hillegal => ?anyIllegal, fun hrom => ?noPowerOfTwo, fun hsector => ?sectorAboveRom, fun hmtl => ?noTransfer,
    fun hmarker => ?sameBytes⟩
  all_goals
    refine step_refused_of_illegal fun hlegal => ?_
    obtain ⟨⟨k, j, -, hjk, hromPow, hsectorPow⟩, hmtlPos, hmarkerNe, -⟩ :=
      (legalConfigurationsAreThoseOfTheSpec s.cfg).mp hlegal
  case anyIllegal => exact Bool.false_ne_true (hillegal.symm.trans hlegal)
  case noPowerOfTwo => exact hrom k hromPow
  case sectorAboveRom =>
    have := Nat.pow_le_pow_right Nat.two_pos hjk
    omega
  case noTransfer => omega
  case sameBytes => exact hmarkerNe hmarker

end Sys2Proof.Machine
end

section
/-! PROOFS. One flash transaction: the addresses a legal request can have (20_memory.md R43), the driver's response and the fault
in its place (43_dispatcher.md R107, 20_memory.md R38), waiting (R42), and the canonical form of the reference array (R57). -/

namespace Sys2Proof

/-- The bounds that `FlashReq.legal` tests, for the three operations that carry an address (R43). -/
theorem FlashReq.legal_iff (cfg : Cfg) (q : FlashReq) :
    q.legal cfg = true ↔
      (q.op = .readByte ∨ q.op = .writeByte → q.addr.toNat < cfg.romSize.toNat) ∧
      (q.op = .eraseSector → q.addr.toNat < cfg.romSize.toNat ∧ q.addr.toNat % cfg.sectorSize.toNat = 0) := by
  cases hop : q.op <;> simp [FlashReq.legal, hop]

theorem FlashOp.isRead_iff (op : FlashOp) : op.isRead = true ↔ op = .readByte ∨ op = .readMfrId ∨ op = .readDevId := by
  cases op <;> simp [FlashOp.isRead]

namespace Machine

/-- Settles O17: every request of a handler is legal. -/
theorem everyRequestStaysInsideTheChip : Obligations.EveryRequestStaysInsideTheChip := by
  intro cfg f _ q hq
  exact (q.legal_iff cfg).mp (dispatch_ops_legal cfg f hq)

/-- Settles O25: `respond` is the step of every handler with a request outstanding. -/
theorem flashDriverAnswersTheOutstandingRequest : Obligations.FlashDriverAnswersTheOutstandingRequest := by
  intro i s p q hexec hreq hlegal
  rw [exec_eq_runHandler, Flash.answer_isSome]
  exact ⟨runHandler_respond hexec hreq hlegal, q.op.isRead_iff⟩

/-- In `EXEC`, with no turn scheduled, a step is the step of the handler that the frame was dispatched to (R107, R109). -/
theorem step_eq_runHandler {s : State} {f : List Byte} (hlegal : s.cfg.legal = true) (hsched : s.sched = [])
    (hphase : s.phase = .exec) (hcmd : s.cmd = some f) : step s = runHandler (dispatch s.cfg f) s := by
  rw [step_eq_phaseStep hlegal hsched, ← execStep_eq_runHandler hcmd]
  simp only [phaseStep, hphase]

/-- The step of a handler while a request outside the chip is outstanding (R38). -/
theorem runHandler_of_illegal_request (h : Handler) {s : State} {p : Progress} {q : FlashReq} (hexec : s.exec = some p)
    (hreq : s.flashReq = some q) (hillegal : ¬ q.legal s.cfg = true) : runHandler h s = .fault .illegalFlashRequest := by
  simp [runHandler, hexec, hreq, hillegal]

/-- Settles O45: each clause breaks one of the bounds of a legal request. -/
theorem illegalFlashRequestsFault : Obligations.IllegalFlashRequestsFault := by
  intro s f p q hlegal hsched hphase hcmd hexec hreq
  have hfault (hillegal : ¬ q.legal s.cfg = true) : step s = .fault .illegalFlashRequest := by
    rw [step_eq_runHandler hlegal hsched hphase hcmd]
    exact runHandler_of_illegal_request _ hexec hreq hillegal
  refine ⟨fun hop habove => hfault fun hq => ?outside, fun hop hbase => hfault fun hq => ?noBase⟩
  all_goals obtain ⟨hbyte, hsector⟩ := (q.legal_iff s.cfg).mp hq
  case outside =>
    obtain hop | hop | hop := hop
    · exact Nat.not_lt.mpr habove (hbyte (.inl hop))
    · exact Nat.not_lt.mpr habove (hbyte (.inr hop))
    · exact Nat.not_lt.mpr habove (hsector hop).1
  case noBase => exact hbase (hsector hop).2

/-- Settles O50: a `stall` turn only uses itself up, and in `RECV` the agent that could move has no byte to offer. -/
theorem waitingChangesNothing : Obligations.WaitingChangesNothing := by
  intro s hlegal
  refine ⟨fun rest hsched => ?stall, fun hsched hphase hrx => ?noByte⟩
  case stall => simp [step, turn, hlegal, hsched]
  case noByte => simp [step_eq_phaseStep hlegal hsched, phaseStep, hphase, recvStep, hrx]

/-- A `Reset` keeps the canonical form, whether it cuts a request short or not (R141). -/
theorem flashAtReset_wf {s : State} (hs : s.flash.array.wf) : (flashAtReset s).array.wf := by
  unfold flashAtReset
  cases s.flashReq with
  | none => exact hs
  | some q => exact Flash.interrupt_wf s.cfg q hs

theorem Move.flashArray_wf {s t : State} (hm : Move s t) (hs : s.flash.array.wf) : t.flash.array.wf := by
  cases hm with
  | respond => exact FlashArray.after_wf _ _ hs
  | reset => exact flashAtReset_wf hs
  | wait | receive | handover | issue | finish | send => exact hs

/-- Settles O57: of the moves, a response and a `Reset` alone change the array. -/
theorem flashArrayStaysCanonical : Obligations.FlashArrayStaysCanonical := by
  intro s t hs hn
  obtain ⟨-, turns, hm⟩ := move_of_step hn
  exact hm.flashArray_wf hs

end Machine
end Sys2Proof
end

section
/-! PROOFS. A handler from its handover to its encoded reply (43_dispatcher.md R107): an induction over the transactions it has
left, two steps for each and one final step. -/

namespace Sys2Proof.Machine

/-- A handler with progress `p` and no request outstanding, under a legal configuration, while nobody waits. The handover is the
case `p = Progress.start`. -/
structure BetweenTransactions (f : List Byte) (p : Progress) (s : State) : Prop where
  configLegal : s.cfg.legal = true
  phase : s.phase = .exec
  cmd : s.cmd = some f
  exec : s.exec = some p
  request : s.flashReq = none
  schedule : s.sched = []

theorem AtEntry.betweenTransactions {f : List Byte} {s : State} (h : AtEntry f s) :
    BetweenTransactions f Progress.start s :=
  ⟨h.configLegal, h.phase, h.cmd, h.exec, h.request, h.schedule⟩

/-- The progress of a handler after one more whole transaction. -/
def Progress.after (p : Progress) (q : FlashReq) (s : State) : Progress :=
  ⟨p.issued + 1, p.reads ++ (s.flash.answer s.cfg q).toList⟩

/-- One whole transaction: the request and its response. -/
def transact (q : FlashReq) (p : Progress) (s : State) : State :=
  respond q ⟨p.issued + 1, p.reads⟩ (issue q p s)

/-- The end of a handler that has the transactions `ops` left. `afterExec` is the case of the whole list. -/
def afterOps (f : List Byte) (ops : List FlashReq) (p : Progress) (s : State) : State :=
  { s with
    phase := .send
    cmd := none
    exec := none
    flash := flashAfterAll s.cfg ops s.flash
    txQ := frameEncode s.cfg ((dispatch s.cfg f).reply (p.reads ++ answersOf s.cfg ops s.flash))
    trace := s.trace ++ flashEventsOf s.cfg ops s.flash }

theorem afterOps_start (f : List Byte) (s : State) :
    afterOps f (dispatch s.cfg f).ops Progress.start s = afterExec f s := rfl

theorem afterOps_nil (f : List Byte) (p : Progress) (s : State) :
    afterOps f [] p s = finish (dispatch s.cfg f) p s := by
  simp [afterOps, finish, flashAfterAll, answersOf, flashEventsOf]

namespace BetweenTransactions

variable {f : List Byte} {p : Progress} {q : FlashReq} {ops : List FlashReq} {s : State}

theorem afterOps_cons (h : BetweenTransactions f p s) :
    afterOps f (q :: ops) p s = afterOps f ops (p.after q s) (transact q p s) := by
  simp [afterOps, transact, respond, issue, Progress.after, flashAfterAll, answersOf, flashEventsOf, h.request]

theorem after_transact (h : BetweenTransactions f p s) (q : FlashReq) :
    BetweenTransactions f (p.after q s) (transact q p s) :=
  ⟨h.configLegal, h.phase, h.cmd, rfl, rfl, h.schedule⟩

theorem step_eq_issue (h : BetweenTransactions f p s) (hnext : (dispatch s.cfg f).ops[p.issued]? = some q) :
    step s = .next (issue q p s) := by
  rw [step_eq_runHandler h.configLegal h.schedule h.phase h.cmd]
  exact runHandler_issue h.exec h.request hnext

theorem step_eq_respond (h : BetweenTransactions f p s) (hq : q.legal s.cfg = true) :
    step (issue q p s) = .next (transact q p s) := by
  rw [step_eq_runHandler (s := issue q p s) h.configLegal h.schedule h.phase h.cmd]
  exact runHandler_respond rfl rfl hq

theorem step_eq_finish (h : BetweenTransactions f p s) (hdone : (dispatch s.cfg f).ops[p.issued]? = none) :
    step s = .next (finish (dispatch s.cfg f) p s) := by
  rw [step_eq_runHandler h.configLegal h.schedule h.phase h.cmd]
  exact runHandler_finish h.exec h.request hdone

/-- A handler performs the transactions it has left and finishes. -/
theorem runSteps_eq_afterOps (h : BetweenTransactions f p s) (hleft : (dispatch s.cfg f).ops.drop p.issued = ops) :
    runSteps (2 * ops.length + 1) s = .next (afterOps f ops p s) := by
  induction ops generalizing p s with
  | nil =>
    have hdone : (dispatch s.cfg f).ops[p.issued]? = none := by rw [← List.head?_drop, hleft, List.head?_nil]
    rw [afterOps_nil]
    exact runSteps_succ (h.step_eq_finish hdone)
  | cons q ops ih =>
    have hnext : (dispatch s.cfg f).ops[p.issued]? = some q := by rw [← List.head?_drop, hleft, List.head?_cons]
    have hrest : (dispatch s.cfg f).ops.drop (p.issued + 1) = ops := by
      rw [← List.drop_drop, hleft, List.drop_one, List.tail_cons]
    have hlegal : q.legal s.cfg = true := dispatch_ops_legal s.cfg f (List.mem_of_getElem? hnext)
    calc runSteps (2 * (q :: ops).length + 1) s
        = runSteps (2 * ops.length + 2) (issue q p s) := runSteps_succ (h.step_eq_issue hnext)
      _ = runSteps (2 * ops.length + 1) (transact q p s) := runSteps_succ (h.step_eq_respond hlegal)
      _ = .next (afterOps f ops (p.after q s) (transact q p s)) := ih (h.after_transact q) hrest
      _ = .next (afterOps f (q :: ops) p s) := by rw [h.afterOps_cons]

end BetweenTransactions

/-- Settles O29: at the handover the whole list is left. -/
theorem handlerRunsToItsReply : Obligations.HandlerRunsToItsReply := by
  intro f s h
  rw [← afterOps_start]
  exact h.betweenTransactions.runSteps_eq_afterOps List.drop_zero

end Sys2Proof.Machine
end

section
/-! PROOFS. What a list of transactions does to the flash driver: the bytes it answers, the cells it leaves alone (20_memory.md
R49), and, on the reference driver (R57), the cells it writes and erases. -/

namespace Sys2Proof.Machine

/-! ### Reads -/

/-- Byte reads outside ID mode leave the driver as it was and return the cells they name (R49). -/
theorem flash_of_readBytes (cfg : Cfg) {ops : List FlashReq} {f : Flash} (hops : ∀ q ∈ ops, q.op = .readByte)
    (hid : f.idMode = false) :
    flashAfterAll cfg ops f = f ∧ answersOf cfg ops f = ops.map fun q => f.array.readCell cfg q.addr.toNat := by
  induction ops with
  | nil => exact ⟨rfl, rfl⟩
  | cons q ops ih =>
    have hq : q.op = .readByte := hops q (by simp)
    obtain ⟨hflash, hanswers⟩ := ih fun r hr => hops r (by simp [hr])
    have hafter : f.after cfg q = f := Flash.after_readByte cfg q f hq hid
    have hanswer : f.answer cfg q = some (f.array.readCell cfg q.addr.toNat) := by simp [Flash.answer, hq, hid]
    simp [flashAfterAll, answersOf, hafter, hanswer, hflash, hanswers]

/-- The reads of a range inside the chip (R119, R121). -/
theorem flash_of_readOps {cfg : Cfg} {start n : Nat} {f : Flash} (hrange : start + n ≤ cfg.romSize.toNat)
    (hid : f.idMode = false) :
    flashAfterAll cfg (readOps start n) f = f ∧
      answersOf cfg (readOps start n) f = (List.range n).map fun i => f.array.readCell cfg (start + i) := by
  have hread : ∀ q ∈ readOps start n, q.op = .readByte := by
    intro q hq
    obtain ⟨i, -, rfl⟩ := mem_readOps.mp hq
    rfl
  obtain ⟨hflash, hanswers⟩ := flash_of_readBytes cfg hread hid
  refine ⟨hflash, hanswers.trans ?_⟩
  rw [readOps, List.map_map]
  refine List.map_congr_left fun i hi => ?_
  have hin : start + i < cfg.romSize.toNat := by
    have := List.mem_range.mp hi
    omega
  simp only [Function.comp_apply, FlashReq.readByte, toNat_addr_of_lt_romSize hin]

/-! ### Programs and erases -/

/-- Transactions that change no array leave it as it is. -/
theorem flashAfterAll_array_of_not_changing (cfg : Cfg) {ops : List FlashReq} (f : Flash)
    (hops : ∀ q ∈ ops, q.op.changesArray = false) : (flashAfterAll cfg ops f).array = f.array := by
  induction ops generalizing f with
  | nil => rfl
  | cons q ops ih =>
    rw [flashAfterAll, ih _ fun r hr => hops r (by simp [hr])]
    exact FlashArray.after_of_not_changing cfg q f.array (hops q (by simp))

/-- A cell that no transaction of the list touches reads as before, whatever the driver. -/
theorem readCell_flashAfterAll_of_untouched (cfg : Cfg) {ops : List FlashReq} (f : Flash) {a : Nat}
    (h : ¬ ∃ q ∈ ops, q.touches cfg a = true) :
    (flashAfterAll cfg ops f).array.readCell cfg a = f.array.readCell cfg a := by
  induction ops generalizing f with
  | nil => rfl
  | cons q ops ih =>
    simp only [List.mem_cons, exists_eq_or_imp, not_or, Bool.not_eq_true] at h
    obtain ⟨hq, hops⟩ := h
    rw [flashAfterAll, ih _ hops]
    exact FlashArray.readCell_after cfg q f.array a hq

/-- An erase of the reference array, by the cells it touches (R57). -/
theorem read_referenceAfter_erase (cfg : Cfg) {q : FlashReq} (hop : q.op = .eraseSector ∨ q.op = .eraseChip)
    (cells : Memory) (a : Nat) :
    (referenceAfter cfg q cells).read a = if q.touches cfg a = true then erasedValue else cells.read a := by
  obtain hop | hop := hop
  · simp [referenceAfter, FlashReq.touches, hop, Memory.read_eraseRange]
  · simp [referenceAfter, FlashReq.touches, hop]

/-- On the reference driver a cell that an erase of the list touches reads the erased value, since a later erase cannot take
that back. -/
theorem readCell_flashAfterAll_of_erased (cfg : Cfg) {ops : List FlashReq} {f : Flash} {cells : Memory} {a : Nat}
    (hops : ∀ q ∈ ops, q.op = .eraseSector ∨ q.op = .eraseChip) (href : f.array = .reference cells)
    (h : cells.read a = erasedValue ∨ ∃ q ∈ ops, q.touches cfg a = true) :
    (flashAfterAll cfg ops f).array.readCell cfg a = erasedValue := by
  induction ops generalizing f cells with
  | nil => simpa [flashAfterAll, href, FlashArray.readCell] using h
  | cons q ops ih =>
    have hafter : (f.after cfg q).array = .reference (referenceAfter cfg q cells) := by
      simp [Flash.after, href, FlashArray.after]
    refine ih (fun r hr => hops r (by simp [hr])) hafter ?_
    rw [read_referenceAfter_erase cfg (hops q (by simp))]
    simp only [List.mem_cons, exists_eq_or_imp] at h
    split <;> tauto

/-- Writing a row of cells sets each to its byte. -/
theorem Memory.read_writeAll_same {m : Memory} (hm : m.wf) (lo : Nat) {vs : List Byte} {i : Nat} {v : Byte}
    (h : vs[i]? = some v) : (m.writeAll lo vs).read (lo + i) = v := by
  induction vs generalizing m lo i with
  | nil => cases h
  | cons w vs ih =>
    rw [Memory.writeAll]
    cases i with
    | zero =>
      obtain rfl : w = v := by simpa using h
      rw [Memory.read_writeAll_other _ _ _ _ (by omega)]
      exact Memory.read_write_same m hm lo w
    | succ i =>
      rw [show lo + (i + 1) = lo + 1 + i by omega]
      exact ih (Memory.write_wf hm lo w) (lo + 1) (by simpa using h)

theorem writeOps_cons (addr : Nat) (v : Byte) (data : List Byte) :
    writeOps addr (v :: data) = .writeByte addr v :: writeOps (addr + 1) data := by
  simp [writeOps, Nat.add_assoc, Nat.add_comm 1]

/-- The programs of a `Write` inside the chip set a row of the reference driver's cells (R57, R120). -/
theorem flashAfterAll_writeOps_reference {cfg : Cfg} {addr : Nat} {data : List Byte} {f : Flash} {cells : Memory}
    (hrange : addr + data.length ≤ cfg.romSize.toNat) (href : f.array = .reference cells) :
    (flashAfterAll cfg (writeOps addr data) f).array = .reference (cells.writeAll addr data) := by
  induction data generalizing addr f cells with
  | nil => exact href
  | cons v data ih =>
    simp only [List.length_cons] at hrange
    have hin : addr < cfg.romSize.toNat := by omega
    rw [writeOps_cons, flashAfterAll, Memory.writeAll]
    refine ih (by omega) ?_
    simp [Flash.after, FlashArray.after, href, referenceAfter, FlashReq.writeByte, toNat_addr_of_lt_romSize hin]

/-! ### The cells that programs and erases touch -/

/-- The programs of a `Write` touch its range and nothing else (R120). -/
theorem writeOps_touches_iff {cfg : Cfg} {addr : Nat} {data : List Byte} {a : Nat}
    (hrange : addr + data.length ≤ cfg.romSize.toNat) :
    (∃ q ∈ writeOps addr data, q.touches cfg a = true) ↔ addr ≤ a ∧ a < addr + data.length := by
  have htouches (i : Nat) (hi : i < data.length) :
      (FlashReq.writeByte (addr + i) data[i]).touches cfg a = true ↔ a = addr + i := by
    have hin : addr + i < cfg.romSize.toNat := by omega
    simp only [FlashReq.touches, FlashReq.writeByte, toNat_addr_of_lt_romSize hin, decide_eq_true_eq]
  constructor
  · rintro ⟨q, hq, ht⟩
    obtain ⟨i, hi, rfl⟩ := mem_writeOps.mp hq
    have := (htouches i hi).mp ht
    omega
  · rintro ⟨hlo, hhi⟩
    have hi : a - addr < data.length := by omega
    exact ⟨_, mem_writeOps.mpr ⟨a - addr, hi, rfl⟩, (htouches _ hi).mpr (by omega)⟩

/-- The erases of an aligned range touch the range and nothing else (R123). -/
theorem eraseOps_touches_iff {cfg : Cfg} {start stop a : Nat} (hsize : 0 < cfg.sectorSize.toNat)
    (hrange : stop ≤ cfg.romSize.toNat) (halign : cfg.sectorSize.toNat ∣ stop - start) :
    (∃ q ∈ eraseOps cfg start stop, q.touches cfg a = true) ↔ start ≤ a ∧ a < stop := by
  have htouches (i : Nat) (hi : i < (stop - start) / cfg.sectorSize.toNat) :
      (FlashReq.eraseSector (start + i * cfg.sectorSize.toNat)).touches cfg a = true ↔
        start + i * cfg.sectorSize.toNat ≤ a ∧ a < start + i * cfg.sectorSize.toNat + cfg.sectorSize.toNat := by
    have hin : start + i * cfg.sectorSize.toNat < cfg.romSize.toNat := (sector_base_lt hi).trans_le hrange
    simp only [FlashReq.touches, FlashReq.eraseSector, toNat_addr_of_lt_romSize hin, Bool.and_eq_true, decide_eq_true_eq]
  constructor
  · rintro ⟨q, hq, ht⟩
    obtain ⟨i, hi, rfl⟩ := mem_eraseOps.mp hq
    obtain ⟨hlo, hhi⟩ := (htouches i hi).mp ht
    have hend : (i + 1) * cfg.sectorSize.toNat ≤ stop - start := (Nat.le_div_iff_mul_le hsize).mp hi
    rw [Nat.succ_mul] at hend
    omega
  · rintro ⟨hlo, hhi⟩
    have hi : (a - start) / cfg.sectorSize.toNat < (stop - start) / cfg.sectorSize.toNat :=
      Nat.div_lt_div_of_lt_of_dvd halign (by omega)
    have hbase := Nat.div_mul_le_self (a - start) cfg.sectorSize.toNat
    have hnext := Nat.lt_div_mul_add (a := a - start) hsize
    exact ⟨_, mem_eraseOps.mpr ⟨_, hi, rfl⟩, (htouches _ hi).mpr (by omega)⟩

end Sys2Proof.Machine
end

section
/-! PROOFS. The decoder reads back a well-formed command from its packet (41_packet.md R66, R91, R92). -/

namespace Sys2Proof

theorem parseHeader_encode (i : Instr) (h : i.wf) : parseHeader (encode i) = some (i.opcode, i.payload) := by
  cases i with
  | ping => exact Laws.ParsedHeader.ping h
  | identify => exact Laws.ParsedHeader.identify h
  | read addr len => exact Laws.ParsedHeader.read addr len h
  | write addr data => exact Laws.ParsedHeader.write addr data h
  | crc start stop => exact Laws.ParsedHeader.crc start stop h
  | erase start stop => exact Laws.ParsedHeader.erase start stop h
  | erasechip => exact Laws.ParsedHeader.erasechip h

theorem addrLenFields_le32 (addr : Addr) (len : Byte) : addrLenFields (le32 addr ++ [len]) = some (addr, len) := by
  simp [le32, addrLenFields, rdLE32_le32]

theorem addrDataFields_le32 (addr : Addr) {data : List Byte} (h : 1 ≤ data.length) :
    addrDataFields (le32 addr ++ data) = some (addr, data) := by
  cases data with
  | nil => cases h
  | cons v data => simp [le32, addrDataFields, rdLE32_le32]

theorem rangeFields_le32 (start stop : Addr) : rangeFields (le32 start ++ le32 stop) = some (start, stop) := by
  simp [le32, rangeFields, rdLE32_le32]

/-- A payload is read by the form of its opcode (R92). -/
theorem decodePayload_payload (i : Instr) (h : i.wf) : decodePayload i.opcode i.payload = .ok i := by
  cases i with
  | ping | identify | erasechip => rfl
  | read addr len => simp [decodePayload, Instr.opcode, Instr.payload, addrLenFields_le32, opRead, opPing, opIdentify]
  | write addr data =>
    obtain ⟨hdata, -⟩ := h
    simp [decodePayload, Instr.opcode, Instr.payload, addrDataFields_le32 addr hdata, opWrite, opRead, opPing, opIdentify]
  | crc start stop =>
    simp [decodePayload, Instr.opcode, Instr.payload, rangeFields_le32, opCrc, opWrite, opRead, opPing, opIdentify]
  | erase start stop =>
    simp [decodePayload, Instr.opcode, Instr.payload, rangeFields_le32, opErase, opCrc, opWrite, opRead, opPing, opIdentify]

theorem decodeCommand_encode (i : Instr) (h : i.wf) : decodeCommand (encode i) = .ok i := by
  have hne : encode i ≠ [] := List.cons_ne_nil _ _
  simp only [decodeCommand, hne, if_false, parseHeader_encode i h, decodePayload_payload i h]

end Sys2Proof
end

section
/-! PROOFS. Whole commands, from handover to reply (44_commands.md R118 to R124): the frame of each is that of a handler whose check
passes, so `HandlerRunsToItsReply` gives the end state, and the laws of the flash driver its cells. -/

namespace Sys2Proof.Machine

/-! ### Replies -/

/-- A successful reply: the status 0 before the body (R67, R88). -/
theorem buildReply_success (op : Byte) (body : List Byte) :
    buildReply op .none body = [op] ++ le16 (BitVec.ofNat 16 (4 + body.length)) ++ [0x00] ++ body := by
  have hlen : 3 + (body.length + 1) = 4 + body.length := by omega
  simp [buildReply, replyPayload, buildPacket, StatusCode.code, hlen]

/-! ### Handlers whose check passes -/

theorem Handler.guarded_of_pass {check : StatusCode} {h : Handler} (hpass : check = .none) : h.guarded check = h := by
  rw [hpass, Handler.guarded]

theorem readCheck_eq_none {cfg : Cfg} {addr len : Nat} (hpos : 1 ≤ len) (hmtl : len ≤ cfg.mtl.toNat)
    (hrange : addr + len ≤ cfg.romSize.toNat) : readCheck cfg addr len = .none := by
  rw [readCheck, if_neg (by omega), if_pos ⟨by omega, hrange⟩]

theorem writeCheck_eq_none {cfg : Cfg} {addr n : Nat} (hpos : 1 ≤ n) (hmtl : n ≤ cfg.mtl.toNat)
    (hrange : addr + n ≤ cfg.romSize.toNat) : writeCheck cfg addr n = .none := by
  rw [writeCheck, if_neg (by omega), if_pos ⟨by omega, hrange⟩]

theorem crcCheck_eq_none {cfg : Cfg} {start stop : Nat} (hrange : rangeOK cfg start stop) :
    crcCheck cfg start stop = .none := by
  rw [crcCheck, if_pos hrange]

theorem eraseCheck_eq_none {cfg : Cfg} {start stop : Nat} (hrange : rangeOK cfg start stop)
    (hstart : start % cfg.sectorSize.toNat = 0) (hstop : stop % cfg.sectorSize.toNat = 0) :
    eraseCheck cfg start stop = .none := by
  rw [eraseCheck, if_pos ⟨hrange, hstart, hstop⟩]

/-- A legal configuration has sectors (R6). -/
theorem sectorSize_pos {cfg : Cfg} (hlegal : cfg.legal = true) : 0 < cfg.sectorSize.toNat := by
  obtain ⟨⟨k, j, -, -, -, hsector⟩, -⟩ := (legalConfigurationsAreThoseOfTheSpec cfg).mp hlegal
  rw [hsector]
  exact Nat.two_pow_pos j

/-! ### How many transactions a command has -/

theorem readOps_length (start n : Nat) : (readOps start n).length = n := by
  simp [readOps]

theorem writeOps_length (addr : Nat) (data : List Byte) : (writeOps addr data).length = data.length := by
  simp [writeOps]

theorem eraseOps_length (cfg : Cfg) (start stop : Nat) :
    (eraseOps cfg start stop).length = (stop - start) / cfg.sectorSize.toNat := by
  simp [eraseOps]

/-! ### The end of a command -/

/-- What the block and the driver are when a handler is done: `h`'s transactions performed on the driver of `s`, and its encoded
reply queued. -/
structure Completed (h : Handler) (s t : State) : Prop where
  phase : t.phase = .send
  flash : t.flash = flashAfterAll s.cfg h.ops s.flash
  reply : t.txQ = frameEncode s.cfg (h.reply (answersOf s.cfg h.ops s.flash))

theorem Completed.of_afterExec (f : List Byte) (s : State) : Completed (dispatch s.cfg f) s (afterExec f s) :=
  ⟨rfl, rfl, rfl⟩

/-- A success that returns nothing replies the status alone (R67). -/
theorem Completed.replies_status {h : Handler} {s t : State} (ht : Completed h s t) (hstatus : h.status = .none)
    (hbody : h.body (answersOf s.cfg h.ops s.flash) = []) : t.txQ = frameEncode s.cfg [h.replyOp, 0x04, 0x00, 0x00] := by
  rw [ht.reply, Handler.reply, hstatus, hbody, buildReply_success]
  rfl

theorem dispatch_encode (cfg : Cfg) {i : Instr} (h : i.wf) : dispatch cfg (encode i) = handlerOf cfg i := by
  rw [dispatch, decodeCommand_encode i h]

/-- A well-formed command completes its handler in two steps a transaction and one more (R107). -/
theorem command_completes {i : Instr} {s : State} {h : Handler} {n : Nat} (hwf : i.wf) (hs : AtEntry (encode i) s)
    (hhandler : handlerOf s.cfg i = h) (hn : h.ops.length = n) :
    ∃ t, runSteps (2 * n + 1) s = .next t ∧ Completed h s t := by
  have hdispatch : dispatch s.cfg (encode i) = h := (dispatch_encode s.cfg hwf).trans hhandler
  subst hn
  rw [← hdispatch]
  exact ⟨_, handlerRunsToItsReply _ _ hs, .of_afterExec _ _⟩

/-! ### The six commands -/

/-- On the reference driver `Identify` returns its two ID bytes (R57). -/
theorem answersOf_identify_reference (cfg : Cfg) {f : Flash} {cells : Memory} (href : f.array = .reference cells) :
    answersOf cfg identifyHandler.ops f = [0xBF, 0xB7] := by
  obtain ⟨array, idMode, draws⟩ := f
  subst href
  rfl

/-- Settles O30: `Identify` changes no array, and its last transaction leaves ID mode. -/
theorem identifyLeavesIdMode : Obligations.IdentifyLeavesIdMode := by
  intro s hs
  obtain ⟨t, hrun, ht⟩ := command_completes (i := .identify) (h := identifyHandler) trivial hs rfl rfl
  have harray : ∀ q ∈ identifyHandler.ops, q.op.changesArray = false := by decide
  refine ⟨t, hrun, ht.phase, by rw [ht.flash]; rfl, ?_, fun cells href => ?_⟩
  · rw [ht.flash, flashAfterAll_array_of_not_changing s.cfg s.flash harray]
  · rw [ht.reply, answersOf_identify_reference s.cfg href]
    rfl

/-- Settles O31: outside ID mode the reads return the cells and change nothing. -/
theorem readReturnsTheCellsOfItsRange : Obligations.ReadReturnsTheCellsOfItsRange := by
  intro s addr len hs hid hpos hmtl hrange
  have hhandler : handlerOf s.cfg (.read addr len) = _ :=
    Handler.guarded_of_pass (readCheck_eq_none hpos hmtl hrange)
  obtain ⟨t, hrun, ht⟩ := command_completes trivial hs hhandler (readOps_length _ _)
  obtain ⟨hflash, hanswers⟩ := flash_of_readOps hrange hid
  refine ⟨t, hrun, ht.phase, ht.flash.trans hflash, ?_⟩
  rw [ht.reply, hanswers, Handler.reply, buildReply_success]
  simp only [List.take_of_length_le, List.length_map, List.length_range, le_refl]
  rfl

/-- Settles O33: the CRC is folded over the cells that the reads return. -/
theorem crcReturnsTheCrcOfItsRange : Obligations.CrcReturnsTheCrcOfItsRange := by
  intro s start stop hs hid hlt hstop
  have hhandler : handlerOf s.cfg (.crc start stop) = _ := Handler.guarded_of_pass (crcCheck_eq_none ⟨hlt, hstop⟩)
  obtain ⟨t, hrun, ht⟩ := command_completes trivial hs hhandler (readOps_length _ _)
  have hrange : start.toNat + (stop.toNat - start.toNat) ≤ s.cfg.romSize.toNat := by omega
  obtain ⟨hflash, hanswers⟩ := flash_of_readOps hrange hid
  refine ⟨t, hrun, ht.phase, ht.flash.trans hflash, ?_⟩
  rw [ht.reply, hanswers, Handler.reply, buildReply_success]
  simp only [List.take_of_length_le, List.length_map, List.length_range, le_refl, le16_length]
  rfl

/-- Settles O32: the programs touch the range and nothing else, and set the reference driver's cells one by one. -/
theorem writeChangesOnlyItsRange : Obligations.WriteChangesOnlyItsRange := by
  intro s addr data hs hpos hmtl hrange
  have hwf : (Instr.write addr data).wf := ⟨hpos, by have := s.cfg.mtl.isLt; omega⟩
  have hdata : data ≠ [] := List.ne_nil_of_length_pos hpos
  have hhandler : handlerOf s.cfg (.write addr data) = _ :=
    Handler.guarded_of_pass ((if_neg hdata).trans (writeCheck_eq_none hpos hmtl hrange))
  obtain ⟨t, hrun, ht⟩ := command_completes hwf hs hhandler (writeOps_length _ _)
  refine ⟨t, hrun, ht.phase, ht.replies_status rfl rfl, fun a hout => ?outside, fun cells href hcells i v hv => ?inside⟩
  case outside =>
    rw [ht.flash]
    refine readCell_flashAfterAll_of_untouched s.cfg s.flash fun htouched => ?_
    have := (writeOps_touches_iff hrange).mp htouched
    omega
  case inside =>
    rw [ht.flash, flashAfterAll_writeOps_reference hrange href]
    exact Memory.read_writeAll_same hcells addr.toNat hv

/-- Settles O34: the erases touch the aligned range and nothing else, and the reference driver's cells stay erased. -/
theorem eraseChangesOnlyItsRange : Obligations.EraseChangesOnlyItsRange := by
  intro s start stop hs hlt hrange hstart hstop
  have hhandler : handlerOf s.cfg (.erase start stop) = _ :=
    Handler.guarded_of_pass (eraseCheck_eq_none ⟨hlt, hrange⟩ hstart hstop)
  obtain ⟨t, hrun, ht⟩ := command_completes trivial hs hhandler (eraseOps_length _ _ _)
  have halign := Nat.dvd_sub (Nat.dvd_of_mod_eq_zero hstop) (Nat.dvd_of_mod_eq_zero hstart)
  have htouches (a : Nat) := eraseOps_touches_iff (a := a) (sectorSize_pos hs.configLegal) hrange halign
  refine ⟨t, hrun, ht.phase, ht.replies_status rfl rfl, fun a hout => ?outside, fun cells href a hlo hhi => ?inside⟩
  case outside =>
    rw [ht.flash]
    refine readCell_flashAfterAll_of_untouched s.cfg s.flash fun htouched => ?_
    have := (htouches a).mp htouched
    omega
  case inside =>
    have hops : ∀ q ∈ eraseOps s.cfg start.toNat stop.toNat, q.op = .eraseSector ∨ q.op = .eraseChip := by
      intro q hq
      obtain ⟨i, -, rfl⟩ := mem_eraseOps.mp hq
      exact .inl rfl
    rw [ht.flash]
    exact readCell_flashAfterAll_of_erased s.cfg hops href (.inr ((htouches a).mpr ⟨hlo, hhi⟩))

/-- Settles O35: the one erase touches every cell. -/
theorem eraseChipErasesEveryCell : Obligations.EraseChipErasesEveryCell := by
  intro s hs
  obtain ⟨t, hrun, ht⟩ := command_completes (i := .erasechip) (h := eraseChipHandler) trivial hs rfl rfl
  refine ⟨t, hrun, ht.phase, ht.replies_status rfl rfl, ht.flash, fun cells href a => ?_⟩
  have hops : ∀ q ∈ eraseChipHandler.ops, q.op = .eraseSector ∨ q.op = .eraseChip := by decide
  rw [ht.flash]
  exact readCell_flashAfterAll_of_erased s.cfg hops href (.inr ⟨_, List.mem_singleton_self _, rfl⟩)

end Sys2Proof.Machine
end

section
/-! PROOFS. The decoder and the encoder are inverse to each other (41_packet.md R66, R91, R92): each reader of R92's payload forms
takes exactly the bytes that the form writes, so a frame that decodes has one command and a command one frame. -/

namespace Sys2Proof

/-! ### What the payload readers take -/

theorem eq_of_addrLenFields {pl : List Byte} {addr : Addr} {len : Byte} (h : addrLenFields pl = some (addr, len)) :
    le32 addr ++ [len] = pl := by
  match pl, h with
  | [a0, a1, a2, a3, n], h =>
    obtain ⟨rfl, rfl⟩ : rdLE32 a0 a1 a2 a3 = addr ∧ n = len := by simpa [addrLenFields] using h
    rw [le32_rdLE32]
    rfl

theorem eq_of_addrDataFields {pl : List Byte} {addr : Addr} {data : List Byte}
    (h : addrDataFields pl = some (addr, data)) : le32 addr ++ data = pl ∧ 1 ≤ data.length := by
  match pl, h with
  | a0 :: a1 :: a2 :: a3 :: d :: ds, h =>
    obtain ⟨rfl, rfl⟩ : rdLE32 a0 a1 a2 a3 = addr ∧ d :: ds = data := by simpa [addrDataFields] using h
    rw [le32_rdLE32]
    exact ⟨rfl, Nat.succ_pos _⟩

theorem eq_of_rangeFields {pl : List Byte} {start stop : Addr} (h : rangeFields pl = some (start, stop)) :
    le32 start ++ le32 stop = pl := by
  match pl, h with
  | [s0, s1, s2, s3, e0, e1, e2, e3], h =>
    obtain ⟨rfl, rfl⟩ : rdLE32 s0 s1 s2 s3 = start ∧ rdLE32 e0 e1 e2 e3 = stop := by simpa [rangeFields] using h
    rw [le32_rdLE32, le32_rdLE32]
    rfl

theorem decodeBare_eq_ok_iff {i j : Instr} {pl : List Byte} : decodeBare i pl = .ok j ↔ pl = [] ∧ i = j := by
  by_cases hpl : pl = [] <;> simp [decodeBare, hpl]

/-! ### The command a frame carries -/

/-- A payload that decodes is the payload of its command, under the command's opcode; the header's bound on the packet's length
and R92's first data byte are what `wf` asks of a `Write`. -/
theorem payload_of_decodePayload {op : Byte} {pl : List Byte} {i : Instr} (h : decodePayload op pl = .ok i)
    (hlen : 3 + pl.length < 65536) : i.opcode = op ∧ i.payload = pl ∧ i.wf := by
  unfold decodePayload at h
  split_ifs at h with hping hidentify hread hwrite hcrc herase herasechip
  · obtain ⟨rfl, rfl⟩ := decodeBare_eq_ok_iff.mp h
    exact ⟨hping.symm, rfl, trivial⟩
  · obtain ⟨rfl, rfl⟩ := decodeBare_eq_ok_iff.mp h
    exact ⟨hidentify.symm, rfl, trivial⟩
  · split at h
    next addr len hfields =>
      cases h
      exact ⟨hread.symm, eq_of_addrLenFields hfields, trivial⟩
    next => cases h
  · split at h
    next addr data hfields =>
      cases h
      obtain ⟨rfl, hdata⟩ := eq_of_addrDataFields hfields
      rw [List.length_append, le32_length] at hlen
      exact ⟨hwrite.symm, rfl, hdata, by omega⟩
    next => cases h
  · split at h
    next start stop hfields =>
      cases h
      exact ⟨hcrc.symm, eq_of_rangeFields hfields, trivial⟩
    next => cases h
  · split at h
    next start stop hfields =>
      cases h
      exact ⟨herase.symm, eq_of_rangeFields hfields, trivial⟩
    next => cases h
  · obtain ⟨rfl, rfl⟩ := decodeBare_eq_ok_iff.mp h
    exact ⟨herasechip.symm, rfl, trivial⟩

/-- A frame that carries a command has a header that parses (R109). -/
theorem exists_parseHeader_of_decodeCommand {f : List Byte} {i : Instr} (h : decodeCommand f = .ok i) :
    ∃ op pl, parseHeader f = some (op, pl) ∧ decodePayload op pl = .ok i := by
  unfold decodeCommand at h
  split_ifs at h
  split at h
  next => cases h
  next op pl hheader => exact ⟨op, pl, hheader, h⟩

/-- Settles O1: the header parses to the opcode and the payload, and the reader of the opcode's form reads its fields back. -/
theorem decodeOfEncodeIsIdentity : Obligations.DecodeOfEncodeIsIdentity :=
  decodeCommand_encode

/-- Settles O2: the frame is the packet of the opcode and payload that its header parses to, and these are the command's own. -/
theorem encodeOfDecodeIsIdentity : Obligations.EncodeOfDecodeIsIdentity := by
  intro f i h
  obtain ⟨op, pl, hheader, hpayload⟩ := exists_parseHeader_of_decodeCommand h
  obtain ⟨rfl, hlen⟩ := buildPacket_of_parseHeader hheader
  obtain ⟨rfl, rfl, hwf⟩ := payload_of_decodePayload hpayload hlen
  exact ⟨rfl, hwf⟩

/-- Settles O3: seven closed packets, each decoded by evaluation. -/
theorem writtenOutPacketsDecode : Obligations.WrittenOutPacketsDecode := by
  unfold Obligations.WrittenOutPacketsDecode
  decide

end Sys2Proof
end

section
/-! PROOFS. The host's expansion of a file write into commands (30_encoding.md R73). -/

namespace Sys2Proof.Machine

/-- There is a `k`-th chunk exactly when its offset lies inside the file. -/
theorem lt_chunkCount_iff {mtl n k : Nat} (hmtl : 1 ≤ mtl) : k < chunkCount mtl n ↔ k * mtl < n := by
  rw [chunkCount, ← Nat.succ_le_iff, Nat.le_div_iff_mul_le hmtl, Nat.succ_mul]
  omega

/-- The chunks reach the end of the file. -/
theorem le_chunkCount_mul {mtl n : Nat} (hmtl : 1 ≤ mtl) : n ≤ chunkCount mtl n * mtl :=
  Nat.not_lt.mp fun h => Nat.lt_irrefl _ ((lt_chunkCount_iff hmtl).mpr h)

/-- The first `n` chunks of `mtl` bytes, joined in order. -/
theorem flatMap_chunks (file : List Byte) (mtl n : Nat) :
    (List.range n).flatMap (fun k => (file.drop (k * mtl)).take mtl) = file.take (n * mtl) := by
  induction n with
  | zero => simp
  | succ n ih => rw [List.range_succ, List.flatMap_append, ih, List.flatMap_singleton, Nat.succ_mul, List.take_add]

/-- The `k`-th command of the expansion, with its chunk inside the file. -/
theorem getElem?_expandWrite {cfg : Cfg} {start k : Nat} {file : List Byte} {i : Instr} (hmtl : 1 ≤ cfg.mtl.toNat)
    (h : (expandWrite cfg start file)[k]? = some i) :
    k * cfg.mtl.toNat < file.length ∧
      i = .write (BitVec.ofNat 32 (start + k * cfg.mtl.toNat)) ((file.drop (k * cfg.mtl.toNat)).take cfg.mtl.toNat) := by
  rw [expandWrite, List.getElem?_map, Option.map_eq_some_iff] at h
  obtain ⟨j, hj, rfl⟩ := h
  simp only [List.getElem?_eq_some_iff, List.length_range, List.getElem_range] at hj
  obtain ⟨hk, rfl⟩ := hj
  exact ⟨(lt_chunkCount_iff hmtl).mp hk, rfl⟩

/-- The data of the expansion's commands, joined in order, is the file. -/
theorem flatMap_expandWrite {cfg : Cfg} {start : Nat} {file : List Byte} {dataOf : Instr → List Byte}
    (hmtl : 1 ≤ cfg.mtl.toNat) (hdata : ∀ a d, dataOf (.write a d) = d) :
    (expandWrite cfg start file).flatMap dataOf = file := by
  simp only [expandWrite, List.flatMap_map, hdata, flatMap_chunks]
  exact List.take_of_length_le (le_chunkCount_mul hmtl)

/-- Settles O60: the chunks partition the file, and none of their addresses wraps, since the file ends inside the chip. -/
theorem cliWriteCoversItsFile : Obligations.CliWriteCoversItsFile := by
  intro cfg start file hlegal hfits
  obtain ⟨-, hmtl, -⟩ := (legalConfigurationsAreThoseOfTheSpec cfg).mp hlegal
  refine ⟨flatMap_expandWrite hmtl fun _ _ => rfl, fun k i hk => ?_⟩
  obtain ⟨hinside, rfl⟩ := getElem?_expandWrite hmtl hk
  have hrom := cfg.romSize.isLt
  refine ⟨_, _, rfl, ?_, List.length_take_le _ _, Nat.mod_eq_of_lt (by omega)⟩
  rw [List.length_take, List.length_drop]
  omega

end Sys2Proof.Machine
end

section
/-! PROOFS. The frame codec (40_framecodec.md): one decoder step in each state (R75 to R82), what feeding a byte, a body and a
whole frame gives, the round trip of R86 at every packet length, and the resynchronization of R87. -/

namespace Sys2Proof

theorem Cfg.legalCodec_of_legal {cfg : Cfg} (h : cfg.legal = true) : cfg.legalCodec = true :=
  (Bool.and_eq_true_iff.mp h).2

theorem Cfg.escape_ne_marker {cfg : Cfg} (hc : cfg.legalCodec = true) : cfg.escape ≠ cfg.marker :=
  (cfg.legalCodec_iff.mp hc).1.symm

namespace Machine

/-! ### One decoder step, state by state -/

theorem appendByte_of_room {cfg : Cfg} {buf : List Byte} (hroom : buf.length < cfg.maxPacket) (v : Byte) :
    appendByte cfg buf v = .quiet ⟨.inFrame, buf ++ [v]⟩ := if_neg (Nat.not_le.mpr hroom)

theorem appendByte_of_full {cfg : Cfg} {buf : List Byte} (hfull : cfg.maxPacket ≤ buf.length) (v : Byte) :
    appendByte cfg buf v = ⟨Decoder.fresh, none, some .oversize⟩ := if_pos hfull

theorem closeFrame_of_ignored {cfg : Cfg} {buf : List Byte} (h : buf = [] ∧ cfg.emptyFrame = .ignore) :
    closeFrame cfg buf = .quiet ⟨.inFrame, []⟩ := if_pos h

theorem closeFrame_of_not_ignored {cfg : Cfg} {buf : List Byte} (h : ¬(buf = [] ∧ cfg.emptyFrame = .ignore)) :
    closeFrame cfg buf = ⟨Decoder.fresh, some buf, none⟩ := if_neg h

theorem decStep_idle_marker (cfg : Cfg) (buf : List Byte) :
    decStep cfg ⟨.idle, buf⟩ cfg.marker = some (.quiet ⟨.inFrame, []⟩) := congrArg some (if_pos rfl)

theorem decStep_idle_of_ne_marker {cfg : Cfg} {b : Byte} (hb : b ≠ cfg.marker) (buf : List Byte) :
    decStep cfg ⟨.idle, buf⟩ b = some (.quiet ⟨.idle, buf⟩) := congrArg some (if_neg hb)

theorem decStep_inFrame_marker (cfg : Cfg) (buf : List Byte) :
    decStep cfg ⟨.inFrame, buf⟩ cfg.marker = some (closeFrame cfg buf) := congrArg some (if_pos rfl)

theorem decStep_inFrame_escape {cfg : Cfg} (hne : cfg.escape ≠ cfg.marker) (buf : List Byte) :
    decStep cfg ⟨.inFrame, buf⟩ cfg.escape = some (.quiet ⟨.escaped, buf⟩) :=
  congrArg some ((if_neg hne).trans (if_pos rfl))

theorem decStep_inFrame_literal {cfg : Cfg} {b : Byte} (hm : b ≠ cfg.marker) (he : b ≠ cfg.escape) (buf : List Byte) :
    decStep cfg ⟨.inFrame, buf⟩ b = some (appendByte cfg buf b) :=
  congrArg some ((if_neg hm).trans (if_neg he))

theorem decStep_escaped_marker (cfg : Cfg) (buf : List Byte) :
    decStep cfg ⟨.escaped, buf⟩ cfg.marker = some ⟨⟨.inFrame, []⟩, none, some .escapedMarker⟩ :=
  congrArg some (if_pos rfl)

theorem decStep_escaped_of_ne_marker {cfg : Cfg} {c : Byte} (hc : c ≠ cfg.marker) (buf : List Byte) :
    decStep cfg ⟨.escaped, buf⟩ c = some (appendByte cfg buf (c ^^^ cfg.escXor)) := congrArg some (if_neg hc)

/-- Settles O6. -/
theorem idleMarkerOpensAFrame : Obligations.IdleMarkerOpensAFrame := decStep_idle_marker

/-- Settles O7. -/
theorem idleIgnoresOtherBytes : Obligations.IdleIgnoresOtherBytes :=
  fun _ buf _ hb => decStep_idle_of_ne_marker hb buf

/-- Settles O8, by whether the frame is the empty one that `Ignore` drops. -/
theorem markerCompletesTheFrame : Obligations.MarkerCompletesTheFrame := by
  intro cfg buf
  simp only [decStep_inFrame_marker, List.length_eq_zero_iff]
  by_cases hignored : buf = [] ∧ cfg.emptyFrame = .ignore
  · rw [closeFrame_of_ignored hignored, if_pos hignored]
    rfl
  · rw [closeFrame_of_not_ignored hignored, if_neg hignored]
    rfl

/-- Settles O9. -/
theorem inFrameBytesAccumulate : Obligations.InFrameBytesAccumulate := by
  intro cfg buf b hlegal _
  have hne := Cfg.escape_ne_marker (Cfg.legalCodec_of_legal hlegal)
  refine ⟨decStep_inFrame_escape hne buf, fun hm he hroom => ?_, fun hm he hfull => ?_⟩
  · rw [decStep_inFrame_literal hm he, appendByte_of_room hroom]
    rfl
  · rw [decStep_inFrame_literal hm he, appendByte_of_full hfull.ge]
    rfl

/-- Settles O10. -/
theorem escapedBytesAreUntransformed : Obligations.EscapedBytesAreUntransformed := by
  intro cfg buf c _
  refine ⟨decStep_escaped_marker cfg buf, fun hm hroom => ?_, fun hm hfull => ?_⟩
  · rw [decStep_escaped_of_ne_marker hm, appendByte_of_room hroom]
    rfl
  · rw [decStep_escaped_of_ne_marker hm, appendByte_of_full hfull.ge]
    rfl

/-! ### Feeding bytes -/

/-- What feeding `bs` gives once a first step has answered `o`: the step's frame and framing error stand in front. -/
def feedAfter (cfg : Cfg) (o : DecOut) (bs : List Byte) : Option FeedOut :=
  (feed cfg o.dec bs).map fun r => ⟨r.dec, o.emit.toList ++ r.frames, o.err.toList ++ r.errs⟩

@[simp] theorem feed_nil (cfg : Cfg) (d : Decoder) : feed cfg d [] = some ⟨d, [], []⟩ := rfl

theorem feed_cons {cfg : Cfg} {d : Decoder} {b : Byte} {o : DecOut} (h : decStep cfg d b = some o) (bs : List Byte) :
    feed cfg d (b :: bs) = feedAfter cfg o bs := by
  simp only [feed, feedAfter, h]
  cases feed cfg o.dec bs <;> rfl

theorem feedAfter_of_feed {cfg : Cfg} {o : DecOut} {bs : List Byte} {r : FeedOut} (h : feed cfg o.dec bs = some r) :
    feedAfter cfg o bs = some ⟨r.dec, o.emit.toList ++ r.frames, o.err.toList ++ r.errs⟩ := by
  rw [feedAfter, h]
  rfl

@[simp] theorem feedAfter_nil (cfg : Cfg) (o : DecOut) : feedAfter cfg o [] = some ⟨o.dec, o.emit.toList, o.err.toList⟩ := by
  simp [feedAfter]

@[simp] theorem feedAfter_quiet (cfg : Cfg) (d : Decoder) (bs : List Byte) : feedAfter cfg (.quiet d) bs = feed cfg d bs := by
  simp [feedAfter, DecOut.quiet]

/-- Outside a frame the decoder passes over everything before the next marker (R76). -/
theorem feed_idle_of_marker_not_mem {cfg : Cfg} {skipped : List Byte} (h : cfg.marker ∉ skipped) (buf rest : List Byte) :
    feed cfg ⟨.idle, buf⟩ (skipped ++ rest) = feed cfg ⟨.idle, buf⟩ rest := by
  induction skipped with
  | nil => rfl
  | cons b skipped ih =>
    have hb : b ≠ cfg.marker := (List.ne_of_not_mem_cons h).symm
    rw [List.cons_append, feed_cons (decStep_idle_of_ne_marker hb buf), feedAfter_quiet, ih (List.not_mem_of_not_mem_cons h)]

/-- The wire bytes of one payload byte, one or two, append exactly that byte: the escape pair is un-transformed by the second
XOR, and a byte sent as itself is neither `MARKER` nor `ESCAPE` (R58, R59). -/
theorem feed_escapeByte {cfg : Cfg} (hc : cfg.legalCodec = true) (buf : List Byte) (b : Byte) (rest : List Byte) :
    feed cfg ⟨.inFrame, buf⟩ (escapeByte cfg b ++ rest) = feedAfter cfg (appendByte cfg buf b) rest := by
  obtain ⟨-, -, hmarker, hescape, htransformed⟩ := cfg.legalCodec_iff.mp hc
  cases hb : cfg.inEscapeSet b with
  | true =>
    have hback : b ^^^ cfg.escXor ^^^ cfg.escXor = b := by
      rw [BitVec.xor_assoc, BitVec.xor_self, BitVec.xor_zero]
    rw [escapeByte_of_mem hb, List.cons_append, feed_cons (decStep_inFrame_escape (Cfg.escape_ne_marker hc) buf),
      feedAfter_quiet, List.singleton_append, feed_cons (decStep_escaped_of_ne_marker (htransformed b hb) buf), hback]
  | false =>
    have hm : b ≠ cfg.marker := by
      rintro rfl
      exact absurd hmarker (by simp [hb])
    have he : b ≠ cfg.escape := by
      rintro rfl
      exact absurd hescape (by simp [hb])
    rw [escapeByte_of_not_mem hb, List.singleton_append, feed_cons (decStep_inFrame_literal hm he buf)]

/-- While the payload fits the buffer, feeding its body appends it. -/
theorem feed_frameBody {cfg : Cfg} (hc : cfg.legalCodec = true) {buf p : List Byte}
    (hfits : buf.length + p.length ≤ cfg.maxPacket) (rest : List Byte) :
    feed cfg ⟨.inFrame, buf⟩ (frameBody cfg p ++ rest) = feed cfg ⟨.inFrame, buf ++ p⟩ rest := by
  induction p generalizing buf with
  | nil => simp
  | cons b p ih =>
    rw [List.length_cons] at hfits
    have hroom : buf.length < cfg.maxPacket := by omega
    have hfits' : (buf ++ [b]).length + p.length ≤ cfg.maxPacket := by
      rw [List.length_append, List.length_singleton]
      omega
    rw [frameBody_cons, List.append_assoc, feed_escapeByte hc, appendByte_of_room hroom, feedAfter_quiet, ih hfits',
      List.append_assoc, List.singleton_append]

/-- Behind an opening marker, a body that fits and its closing marker are what the marker makes of the packet (R77). -/
theorem feed_frameBody_marker {cfg : Cfg} (hc : cfg.legalCodec = true) {p : List Byte} (hfits : p.length ≤ cfg.maxPacket) :
    feed cfg ⟨.inFrame, []⟩ (frameBody cfg p ++ [cfg.marker]) = feedAfter cfg (closeFrame cfg p) [] := by
  rw [feed_frameBody hc (by simpa using hfits), List.nil_append, feed_cons (decStep_inFrame_marker cfg p)]

/-- A nonempty packet that fits is emitted behind whatever the opening marker did, from any state in which that marker leaves
`InFrame` with an empty buffer. -/
theorem feed_frameEncode {cfg : Cfg} (hlegal : cfg.legal = true) {p : List Byte} (hne : 1 ≤ p.length)
    (hfits : p.length ≤ cfg.maxPacket) {d : Decoder} {emit : Option (List Byte)} {err : Option FramingError}
    (hopen : decStep cfg d cfg.marker = some ⟨⟨.inFrame, []⟩, emit, err⟩) :
    feed cfg d (frameEncode cfg p) = some ⟨Decoder.fresh, emit.toList ++ [p], err.toList⟩ := by
  have hkept : ¬(p = [] ∧ cfg.emptyFrame = .ignore) := fun h => List.length_pos_iff.mp hne h.1
  have hbody := feed_frameBody_marker (Cfg.legalCodec_of_legal hlegal) hfits
  rw [closeFrame_of_not_ignored hkept, feedAfter_nil] at hbody
  rw [frameEncode, feed_cons hopen, feedAfter_of_feed hbody]
  simp

/-- A packet too long for the buffer is cut off at its first byte without room: `Oversize`, the rest of its body is passed over
in `Idle`, and the closing marker opens a frame (R82, R76, R75). -/
theorem feed_frameBody_marker_of_oversize {cfg : Cfg} (hc : cfg.legalCodec = true) {p : List Byte}
    (hover : cfg.maxPacket < p.length) :
    feed cfg ⟨.inFrame, []⟩ (frameBody cfg p ++ [cfg.marker]) = some ⟨⟨.inFrame, []⟩, [], [.oversize]⟩ := by
  obtain ⟨kept, b, lost, rfl, hfull⟩ : ∃ kept b lost, p = kept ++ b :: lost ∧ kept.length = cfg.maxPacket :=
    ⟨p.take cfg.maxPacket, p[cfg.maxPacket], p.drop (cfg.maxPacket + 1), by simp, by simpa using hover.le⟩
  have hlost : feed cfg Decoder.fresh (frameBody cfg lost ++ [cfg.marker]) = some ⟨⟨.inFrame, []⟩, [], []⟩ := by
    rw [Decoder.fresh, feed_idle_of_marker_not_mem (marker_not_mem_frameBody hc lost),
      feed_cons (decStep_idle_marker cfg []), feedAfter_quiet, feed_nil]
  have hbody : frameBody cfg (kept ++ b :: lost) = frameBody cfg kept ++ (escapeByte cfg b ++ frameBody cfg lost) := by
    simp [frameBody]
  rw [hbody, List.append_assoc, feed_frameBody hc (by simpa using hfull.le), List.nil_append, List.append_assoc,
    feed_escapeByte hc, appendByte_of_full hfull.ge, feedAfter_of_feed hlost]
  rfl

/-! ### The round trip and the resynchronization -/

/-- Settles O12: in `Idle` the opening marker does nothing but open the frame. -/
theorem frameRoundTrip : Obligations.FrameRoundTrip :=
  fun cfg _ hlegal hne hfits => feed_frameEncode hlegal hne hfits (decStep_idle_marker cfg [])

/-- Settles O13: the empty packet is what the policy makes of it, and the oversize one is cut off. -/
theorem frameRoundTripAtOtherLengths : Obligations.FrameRoundTripAtOtherLengths := by
  intro cfg hlegal
  have hc := Cfg.legalCodec_of_legal hlegal
  have hopen (p : List Byte) : feed cfg ⟨.idle, []⟩ (frameEncode cfg p) =
      feed cfg ⟨.inFrame, []⟩ (frameBody cfg p ++ [cfg.marker]) := by
    rw [frameEncode, feed_cons (decStep_idle_marker cfg []), feedAfter_quiet]
  refine ⟨fun hignore => ?_, fun hemit => ?_, fun p hover => ?_⟩
  · rw [hopen, feed_frameBody_marker hc (Nat.zero_le _), closeFrame_of_ignored ⟨rfl, hignore⟩, feedAfter_quiet, feed_nil]
  · rw [hopen, feed_frameBody_marker hc (Nat.zero_le _), closeFrame_of_not_ignored (by simp [hemit]), feedAfter_nil]
    rfl
  · rw [hopen, feed_frameBody_marker_of_oversize hc hover]

/-- Under `Ignore` a second marker in a row changes nothing, and the frame behind it is emitted alone. -/
theorem feed_frameEncode_of_opened {cfg : Cfg} (hlegal : cfg.legal = true) (hignore : cfg.emptyFrame = .ignore)
    {p : List Byte} (hne : 1 ≤ p.length) (hfits : p.length ≤ cfg.maxPacket) :
    feed cfg ⟨.inFrame, []⟩ (frameEncode cfg p) = some ⟨Decoder.fresh, [p], []⟩ := by
  have hmarker := decStep_inFrame_marker cfg []
  rw [closeFrame_of_ignored ⟨rfl, hignore⟩] at hmarker
  exact feed_frameEncode hlegal hne hfits hmarker

/-- Settles O14, by what the first bytes do: they leave the decoder in `Idle`, in `InFrame` with an empty buffer, or in
`Escaped`, and the encoded frame's own marker opens its frame from each of these. -/
theorem markerResynchronizesTheDecoder : Obligations.MarkerResynchronizesTheDecoder := by
  intro cfg p hlegal hne hfits
  have hescape := decStep_inFrame_escape (Cfg.escape_ne_marker (Cfg.legalCodec_of_legal hlegal)) []
  refine ⟨fun buf => ?_, fun hignore buf => ⟨?_, ?_⟩, ?_⟩
  · rw [feed_cons (decStep_inFrame_marker cfg buf)]
    by_cases hignored : buf = [] ∧ cfg.emptyFrame = .ignore
    · rw [closeFrame_of_ignored hignored, if_pos hignored, feedAfter_quiet,
        feed_frameEncode_of_opened hlegal hignored.2 hne hfits]
      rfl
    · rw [closeFrame_of_not_ignored hignored, if_neg hignored,
        feedAfter_of_feed (frameRoundTrip cfg p hlegal hne hfits)]
      rfl
  · rw [feed_cons (decStep_idle_marker cfg buf), feedAfter_quiet, feed_frameEncode_of_opened hlegal hignore hne hfits]
    rfl
  · rw [feed_cons (decStep_escaped_marker cfg buf),
      feedAfter_of_feed (feed_frameEncode_of_opened hlegal hignore hne hfits)]
    rfl
  · rw [feed_cons (decStep_idle_marker cfg []), feedAfter_quiet, feed_cons hescape, feedAfter_quiet,
      feed_frameEncode hlegal hne hfits (decStep_escaped_marker cfg [])]
    rfl

end Machine
end Sys2Proof
end

section
/-! PROOFS. The host's reading of the block's replies (41_packet.md R90, R93) and `Ping`'s one step (44_commands.md R117). -/

namespace Sys2Proof.Machine

/-! ### `DecodeReply` of a built reply -/

/-- R68's status codes are distinct, so the status byte says which one was sent. -/
@[simp] theorem StatusCode.ofCode_code (st : StatusCode) : StatusCode.ofCode st.code = some st := by
  cases st <;> rfl

/-- The header of a built packet passes `DecodeReply`'s length check, while its length fits the u16 field (R93). -/
theorem decodeReply_buildPacket (op : Byte) (reqLen : Nat) (replied status : Byte) {body : List Byte}
    (hfits : body.length + 4 < 65536) :
    decodeReply op reqLen (buildPacket replied (status :: body)) = decodeReplyFields op reqLen replied status body := by
  have hlen : rdLE16 ((BitVec.ofNat 16 (3 + (status :: body).length)).extractLsb' 0 8)
      ((BitVec.ofNat 16 (3 + (status :: body).length)).extractLsb' 8 8) = body.length + 4 := by
    rw [rdLE16_le16, BitVec.toNat_ofNat, List.length_cons]
    omega
  simp only [buildPacket, le16, List.cons_append, List.nil_append, decodeReply, hlen, if_true]

/-- A success is `Ok` when its body has the length that R93 lists for the command. -/
theorem decodeReply_of_success {op : Byte} {reqLen : Nat} {body : List Byte} (hfits : body.length + 4 < 65536)
    (hlen : some body.length = successBodyLen op reqLen) :
    decodeReply op reqLen (buildReply op .none body) = .ok body := by
  simp [buildReply, replyPayload, decodeReply_buildPacket op reqLen op _ hfits, decodeReplyFields, hlen]

/-- A reply of any other status carries no body, so it is `Failed` with that status (R67, R93). -/
theorem decodeReply_of_failure {op : Byte} {reqLen : Nat} {st : StatusCode} {body : List Byte} (hst : st ≠ .none) :
    decodeReply op reqLen (buildReply op st body) = .failed st := by
  have hfits : ([] : List Byte).length + 4 < 65536 := by decide
  cases st with
  | none => exact absurd rfl hst
  | badCommand | badAddress | badLength | testMode =>
    simp [buildReply, replyPayload, decodeReply_buildPacket op reqLen op _ hfits, decodeReplyFields]

/-! ### What a handler replies -/

@[simp] theorem Handler.guarded_replyOp (check : StatusCode) (h : Handler) : (h.guarded check).replyOp = h.replyOp := by
  cases check <;> rfl

/-- A command is answered under its own opcode, whatever its validator check says (R90, R107). -/
theorem handlerOf_replyOp (cfg : Cfg) (i : Instr) : (handlerOf cfg i).replyOp = i.opcode := by
  cases i with
  | ping | identify | erasechip => rfl
  | read | write | crc | erase => exact Handler.guarded_replyOp _ _

/-- A guarded handler succeeds only when its check passed. -/
theorem Handler.guarded_of_success {check : StatusCode} {h : Handler} (hok : (h.guarded check).status = .none) :
    h.guarded check = h := by
  obtain ⟨-, heq⟩ | ⟨hfail, heq⟩ := Handler.guarded_cases check h
  · exact heq
  · rw [heq] at hok
    exact absurd hok hfail

/-- Every transaction of `readOps` returns a byte. -/
theorem countP_isRead_readOps (start n : Nat) : (readOps start n).countP (fun q => q.op.isRead) = n := by
  have hreads : ∀ q ∈ readOps start n, q.op.isRead = true := by
    intro q hq
    obtain ⟨k, -, rfl⟩ := mem_readOps.mp hq
    rfl
  rw [List.countP_eq_length.mpr hreads, readOps_length]

/-- A successful command's body has the length that R93's host expects: for `Identify` and `Read` it is the bytes read, for the
others it does not depend on them. -/
theorem handlerOf_success_body_length {cfg : Cfg} {i : Instr} {reads : List Byte} {reqLen : Nat}
    (hreads : reads.length = (handlerOf cfg i).ops.countP (fun q => q.op.isRead))
    (hreq : ∀ a n, i = .read a n → reqLen = n.toNat) (hok : (handlerOf cfg i).status = .none) :
    some ((handlerOf cfg i).body reads).length = successBodyLen i.opcode reqLen := by
  cases i with
  | ping | erasechip => rfl
  | identify =>
    have htwo : reads.length = 2 := hreads
    have hbody : (reads.take 2).length = 2 := by simp [htwo]
    exact congrArg some hbody
  | read addr len =>
    have hpass : handlerOf cfg (.read addr len) = _ := Handler.guarded_of_success hok
    rw [hpass] at hreads ⊢
    have hall : reads.length = len.toNat := hreads.trans (countP_isRead_readOps _ _)
    have hbody : (reads.take len.toNat).length = reqLen := by simp [hall, hreq addr len rfl]
    exact congrArg some hbody
  | write | crc | erase =>
    exact congrArg (fun h : Handler => some (h.body reads).length) (Handler.guarded_of_success hok)

/-- Settles O59: the reply carries the command's opcode, its length fits the header, and a success body has the length the
host expects. -/
theorem hostDecodesEveryReply : Obligations.HostDecodesEveryReply := by
  intro cfg i reads reqLen _ hreads hreq
  rw [Handler.reply, handlerOf_replyOp]
  split
  case isTrue hok =>
    have hbody := handlerOf_body_length_le cfg i reads
    have hmtl := cfg.mtl.isLt
    rw [hok]
    exact decodeReply_of_success (by omega) (handlerOf_success_body_length hreads hreq hok)
  case isFalse hfail => exact decodeReply_of_failure hfail

/-! ### `Ping` -/

/-- Settles O18: `Ping` has no transaction, so whatever its progress its step is the final one. -/
theorem pingRepliesVersionAndGeometry : Obligations.PingRepliesVersionAndGeometry := by
  intro s p hexec hreq
  have hreply : (pingHandler s.cfg).reply p.reads =
      [0x00, 0x0B, 0x00, 0x00, s.cfg.fwMajor, s.cfg.fwMinor] ++ le32 s.cfg.romSize ++ [s.cfg.mtl] := by
    have hheader : le16 (BitVec.ofNat 16 (4 + 7)) = [0x0B, 0x00] := by decide
    rw [Handler.reply, pingHandler, buildReply_success]
    simp [hheader, opPing]
  rw [exec_eq_runHandler, handlerOf, runHandler_finish hexec hreq List.getElem?_nil, finish, hreply]

end Sys2Proof.Machine
end

section
/-! PROOFS. The address-range validator (42_validator.md): the transfer checks as chains of conditions (R99, R100) and the range
checks as exact equivalences (R101, R102). -/

namespace Sys2Proof.Machine

/-! ### `ReadCheck` and `WriteCheck` -/

/-- A transfer of `n` bytes covers a range of R98 exactly when it moves a byte and ends inside the chip; the sum is exact (R97),
so it cannot wrap below its start. -/
theorem rangeOK_add_iff {cfg : Cfg} {addr n : Nat} :
    rangeOK cfg addr (addr + n) ↔ 1 ≤ n ∧ addr + n ≤ cfg.romSize.toNat :=
  and_congr_left' Nat.lt_add_right_iff_pos

/-- Settles O15: both checks test the length first, and their range test is `rangeOK_add_iff`. -/
theorem transferChecksFollowTheirOrder : Obligations.TransferChecksFollowTheirOrder := by
  intro cfg addr n
  refine ⟨?_, ?_⟩
  · rw [readCheck]
    exact if_congr Iff.rfl rfl (if_congr rangeOK_add_iff rfl rfl)
  · rw [writeCheck]
    exact if_congr Iff.rfl rfl (if_congr rangeOK_add_iff rfl rfl)

/-! ### `CrcCheck` and `EraseCheck` -/

theorem crcCheck_of_not_rangeOK {cfg : Cfg} {s e : Nat} (hrange : ¬ rangeOK cfg s e) : crcCheck cfg s e = .badAddress := by
  rw [crcCheck, if_neg hrange]

/-- The range is never rounded: one misaligned end fails the check (R102). -/
theorem eraseCheck_of_not_aligned_range {cfg : Cfg} {s e : Nat}
    (hrange : ¬ (rangeOK cfg s e ∧ s % cfg.sectorSize.toNat = 0 ∧ e % cfg.sectorSize.toNat = 0)) :
    eraseCheck cfg s e = .badAddress := by
  rw [eraseCheck, if_neg hrange]

/-- A check that passes where `P` holds and answers `BadAddress` elsewhere passes exactly on `P`, and has no other failure. -/
theorem StatusCode.passes_exactly {st : StatusCode} {P : Prop} (hpass : P → st = .none) (hfail : ¬ P → st = .badAddress) :
    (st = .none ↔ P) ∧ (st ≠ .none → st = .badAddress) := by
  refine ⟨⟨fun hnone => ?_, hpass⟩, fun hne => hfail (mt hpass hne)⟩
  by_contra hP
  cases hnone.symm.trans (hfail hP)

/-- Settles O16: each check passes on its range, answers `BadAddress` off it, and so passes exactly there. -/
theorem rangeChecksPassExactly : Obligations.RangeChecksPassExactly := by
  intro cfg s e
  obtain ⟨hcrc, hcrcFail⟩ := StatusCode.passes_exactly
    (crcCheck_eq_none (cfg := cfg)) (crcCheck_of_not_rangeOK (s := s) (e := e))
  obtain ⟨herase, heraseFail⟩ := StatusCode.passes_exactly
    (fun ⟨hrange, hstart, hstop⟩ => eraseCheck_eq_none hrange hstart hstop)
    (eraseCheck_of_not_aligned_range (cfg := cfg) (s := s) (e := e))
  exact ⟨hcrc, hcrcFail, herase, heraseFail⟩

end Sys2Proof.Machine
end

section
/-! PROOFS. Which frames carry no command (60_exceptions.md R131, items 1 to 4): each reader of R92's payload forms fails exactly
on the lengths that its form does not have. -/

namespace Sys2Proof

/-! ### Headers and payload forms, by length -/

theorem parseHeader_of_short {f : List Byte} (h : f.length < 3) : parseHeader f = none := by
  match f, h with
  | [], _ | [_], _ | [_, _], _ => rfl

/-- A header fails on a `total_length` that is not the frame's own (R110). -/
theorem parseHeader_cons (op l0 l1 : Byte) (pl : List Byte) :
    parseHeader (op :: l0 :: l1 :: pl) =
      if l0.toNat + 256 * l1.toNat = (op :: l0 :: l1 :: pl).length then some (op, pl) else none := rfl

theorem addrLenFields_eq_none_iff (pl : List Byte) : addrLenFields pl = none ↔ pl.length ≠ 5 := by
  match pl with
  | [] | [_] | [_, _] | [_, _, _] | [_, _, _, _] | [_, _, _, _, _] | _ :: _ :: _ :: _ :: _ :: _ :: _ =>
    simp [addrLenFields]

theorem addrDataFields_eq_none_iff (pl : List Byte) : addrDataFields pl = none ↔ pl.length < 5 := by
  match pl with
  | [] | [_] | [_, _] | [_, _, _] | [_, _, _, _] | _ :: _ :: _ :: _ :: _ :: _ => simp [addrDataFields]

theorem rangeFields_eq_none_iff (pl : List Byte) : rangeFields pl = none ↔ pl.length ≠ 8 := by
  match pl with
  | [] | [_] | [_, _] | [_, _, _] | [_, _, _, _] | [_, _, _, _, _] | [_, _, _, _, _, _] | [_, _, _, _, _, _, _]
  | [_, _, _, _, _, _, _, _] | _ :: _ :: _ :: _ :: _ :: _ :: _ :: _ :: _ :: _ => simp [rangeFields]

/-! ### Payloads and frames -/

/-- The ways a payload does not fit its opcode (R111; the first check of R117 to R124). -/
def MisfitPayload (op : Byte) (pl : List Byte) : Prop :=
  7 ≤ op.toNat ∨
  ((op = 0x00 ∨ op = 0x01 ∨ op = 0x06) ∧ pl.length ≠ 0) ∨
  (op = 0x02 ∧ pl.length ≠ 5) ∨
  (op = 0x03 ∧ pl.length < 5) ∨
  ((op = 0x04 ∨ op = 0x05) ∧ pl.length ≠ 8)

theorem decodeBare_fails_iff (i : Instr) (pl : List Byte) : (∃ e, decodeBare i pl = .error e) ↔ pl.length ≠ 0 := by
  by_cases hpl : pl = [] <;> simp [decodeBare, hpl]

theorem seven_le_toNat_of_unknown {op : Byte} (hping : op ≠ opPing) (hidentify : op ≠ opIdentify) (hread : op ≠ opRead)
    (hwrite : op ≠ opWrite) (hcrc : op ≠ opCrc) (herase : op ≠ opErase) (herasechip : op ≠ opEraseChip) :
    7 ≤ op.toNat := by
  simp only [opPing, opIdentify, opRead, opWrite, opCrc, opErase, opEraseChip] at *
  bv_omega

theorem misfitPayload_read_iff (pl : List Byte) : MisfitPayload opRead pl ↔ addrLenFields pl = none := by
  simp [MisfitPayload, opRead, addrLenFields_eq_none_iff]

theorem misfitPayload_write_iff (pl : List Byte) : MisfitPayload opWrite pl ↔ addrDataFields pl = none := by
  simp [MisfitPayload, opWrite, addrDataFields_eq_none_iff]

theorem misfitPayload_range_iff {op : Byte} (hop : op = opCrc ∨ op = opErase) (pl : List Byte) :
    MisfitPayload op pl ↔ rangeFields pl = none := by
  obtain rfl | rfl := hop <;> simp [MisfitPayload, opCrc, opErase, rangeFields_eq_none_iff]

theorem misfitPayload_bare_iff {op : Byte} (hop : op = opPing ∨ op = opIdentify ∨ op = opEraseChip) (i : Instr)
    (pl : List Byte) : MisfitPayload op pl ↔ ∃ e, decodeBare i pl = .error e := by
  rw [decodeBare_fails_iff]
  obtain rfl | rfl | rfl := hop <;> simp [MisfitPayload, opPing, opIdentify, opEraseChip]

/-- `decodePayload` fails on the payloads that do not fit and on no other, opcode by opcode. -/
theorem decodePayload_fails_iff (op : Byte) (pl : List Byte) :
    (∃ e, decodePayload op pl = .error e) ↔ MisfitPayload op pl := by
  unfold decodePayload
  split_ifs with hping hidentify hread hwrite hcrc herase herasechip
  · exact (misfitPayload_bare_iff (.inl hping) _ pl).symm
  · exact (misfitPayload_bare_iff (.inr (.inl hidentify)) _ pl).symm
  · rw [hread, misfitPayload_read_iff]
    cases addrLenFields pl <;> simp
  · rw [hwrite, misfitPayload_write_iff]
    cases addrDataFields pl <;> simp
  · rw [misfitPayload_range_iff (.inl hcrc)]
    cases rangeFields pl <;> simp
  · rw [misfitPayload_range_iff (.inr herase)]
    cases rangeFields pl <;> simp
  · exact (misfitPayload_bare_iff (.inr (.inr herasechip)) _ pl).symm
  · exact iff_of_true ⟨_, rfl⟩ (.inl (seven_le_toNat_of_unknown hping hidentify hread hwrite hcrc herase herasechip))

/-- A frame of three bytes or more fails by its header or by its payload. -/
theorem decodeCommand_cons_fails_iff (op l0 l1 : Byte) (pl : List Byte) :
    (∃ e, decodeCommand (op :: l0 :: l1 :: pl) = .error e) ↔
      l0.toNat + 256 * l1.toNat ≠ (op :: l0 :: l1 :: pl).length ∨ MisfitPayload op pl := by
  rw [decodeCommand, if_neg (List.cons_ne_nil _ _), parseHeader_cons]
  by_cases hlen : l0.toNat + 256 * l1.toNat = (op :: l0 :: l1 :: pl).length
  · rw [if_pos hlen, ← decodePayload_fails_iff]
    exact (or_iff_right (not_not_intro hlen)).symm
  · rw [if_neg hlen]
    exact iff_of_true ⟨_, rfl⟩ (.inl hlen)

theorem decodeCommand_fails_of_short {f : List Byte} (h : f.length < 3) : ∃ e, decodeCommand f = .error e := by
  rw [decodeCommand, parseHeader_of_short h]
  split
  · exact ⟨_, rfl⟩
  · exact ⟨_, rfl⟩

/-- Settles O4: shorter frames fail, and a longer one is its first three bytes and the payload behind them. -/
theorem framesThatCarryNoCommand : Obligations.FramesThatCarryNoCommand := by
  intro f
  match f with
  | [] | [_] | [_, _] => exact iff_of_true (decodeCommand_fails_of_short (by simp)) (.inl (by simp))
  | op :: l0 :: l1 :: pl =>
    have hlong : ¬ (op :: l0 :: l1 :: pl).length < 3 := by simp
    rw [decodeCommand_cons_fails_iff, or_iff_right hlong]
    refine ⟨fun h => ⟨op, l0, l1, pl, rfl, h⟩, ?_⟩
    rintro ⟨op', l0', l1', pl', heq, h⟩
    cases heq
    exact h

end Sys2Proof
end

section
/-! PROOFS. One step of the machine in each phase (43_dispatcher.md R106 to R109), and the reply to a frame that carries no
command (R110 to R112). -/

namespace Sys2Proof.Machine

/-! ### `EXEC` -/

/-- A turn that lets the agent move is used up by the step of the phase. -/
theorem step_eq_phaseStep_of_go {s : State} {rest : List Turn} (hlegal : s.cfg.legal = true)
    (hsched : s.sched = .go :: rest) : step s = phaseStep { s with sched := rest } := by
  simp [step, turn, hlegal, hsched]

theorem phaseStep_eq_exec {s : State} {f : List Byte} {i : Instr} (hphase : s.phase = .exec) (hcmd : s.cmd = some f)
    (hdec : decodeCommand f = .ok i) : phaseStep s = exec i s := by
  simp only [phaseStep, hphase, execStep, hcmd, hdec]

/-- Settles O38: either turn lets the step of `EXEC` happen. -/
theorem stepRunsTheDecodedCommand : Obligations.StepRunsTheDecodedCommand := by
  intro s f i hlegal hphase hcmd hdec
  refine ⟨fun hsched => ?_, fun rest hsched => ?_⟩
  · rw [step_eq_phaseStep hlegal hsched, phaseStep_eq_exec hphase hcmd hdec]
  · rw [step_eq_phaseStep_of_go hlegal hsched, phaseStep_eq_exec (s := { s with sched := rest }) hphase hcmd hdec]

theorem decodeTableWord_eq_some_iff {nbits w : Nat} {i : Instr} :
    decodeTableWord nbits w = some i ↔ decodeCommand (tablePacket nbits w) = .ok i := by
  unfold decodeTableWord
  cases decodeCommand (tablePacket nbits w) <;> simp

/-- Settles O39: the placed packet is the command held at the handover, so the step runs it. -/
theorem fetchedWordRunsNext : Obligations.FetchedWordRunsNext := by
  intro s nbits w i hlegal hword
  obtain ⟨hnow, -⟩ := stepRunsTheDecodedCommand (s.withFetchWord nbits w) (tablePacket nbits w) i hlegal rfl rfl
    (decodeTableWord_eq_some_iff.mp hword)
  exact hnow rfl

/-! ### Frames that carry no command -/

theorem replyOp_eq_headD (f : List Byte) : replyOp f = f.headD 0xFF := by
  cases f <;> rfl

theorem dispatch_of_reject {cfg : Cfg} {f : List Byte} {e : Reject} (h : decodeCommand f = .error e) :
    dispatch cfg f = Handler.fixed (f.headD 0xFF) .badCommand := by
  rw [dispatch, h, replyOp_eq_headD]

/-- A fixed error reply is the header and the status (R67, R109). -/
theorem Handler.fixed_reply (op : Byte) {st : StatusCode} (hst : st ≠ .none) (reads : List Byte) :
    (Handler.fixed op st).reply reads = [op, 0x04, 0x00, st.code] := by
  have hheader : le16 (BitVec.ofNat 16 (3 + 1)) = [0x04, 0x00] := by decide
  cases st with
  | none => exact absurd rfl hst
  | badCommand | badAddress | badLength | testMode =>
    simp [Handler.reply, Handler.fixed, buildReply, replyPayload, buildPacket, hheader]

/-- Settles O40: the fixed handler has no transaction, so its first step is the final one. -/
theorem rejectedFramesAreAnsweredBadCommand : Obligations.RejectedFramesAreAnsweredBadCommand := by
  intro s f e hs hdec
  have hdispatch := dispatch_of_reject (cfg := s.cfg) hdec
  have hdone : (dispatch s.cfg f).ops[Progress.start.issued]? = none := by rw [hdispatch]; rfl
  rw [hs.betweenTransactions.step_eq_finish hdone, hdispatch, finish, Handler.fixed_reply _ (by decide)]
  rfl

/-! ### `RECV` and `SEND` -/

theorem step_eq_received {s : State} {b : Byte} {rest : List Byte} {o : DecOut} (hlegal : s.cfg.legal = true)
    (hphase : s.phase = .recv) (hsched : s.sched = []) (hrx : s.rx = b :: rest) (hdec : decStep s.cfg s.dec b = some o) :
    step s = .next (received b o { s with rx := rest }) := by
  simp only [step_eq_phaseStep hlegal hsched, phaseStep, hphase, recvStep, hrx, hdec]

theorem toList_map_framingError (err : Option FramingError) :
    (err.map Event.framingError).toList = err.toList.map .framingError := by
  cases err <;> rfl

/-- Settles O41, by whether the byte completed a frame. -/
theorem receiveTakesOneByte : Obligations.ReceiveTakesOneByte := by
  intro s b rest o hlegal hphase hsched hrx hdec
  rw [step_eq_received hlegal hphase hsched hrx hdec]
  refine ⟨fun hemit => ?_, fun f hemit => ?_⟩
  · simp only [received, hemit, toList_map_framingError]
  · simp only [received, hemit, toList_map_framingError]
    rfl

/-- Settles O42. -/
theorem sendEmitsOneByte : Obligations.SendEmitsOneByte := by
  intro s b rest hlegal hphase hsched htx
  simp only [step_eq_phaseStep hlegal hsched, phaseStep, hphase, sendStep, htx]

end Sys2Proof.Machine
end

section
/-! PROOFS. One step of phase `EXEC` of a command whose check passes (44_commands.md R118 to R124), and the frame of one step of
any command (43_dispatcher.md R107). -/

namespace Sys2Proof.Machine

/-! ### The step of a command, by its handler -/

theorem exec_issues {i : Instr} {s : State} {h : Handler} {k : Nat} {r : List Byte} {q : FlashReq}
    (hhandler : handlerOf s.cfg i = h) (hreq : s.flashReq = none) (hexec : s.exec = some ⟨k, r⟩)
    (hnext : h.ops[k]? = some q) :
    exec i s = .next { s with
      flashReq := some q, exec := some ⟨k + 1, r⟩, trace := s.trace ++ [.flashReq q] } := by
  subst hhandler
  rw [exec_eq_runHandler, runHandler_issue hexec hreq hnext]
  rfl

/-- After as many transactions as its list has, a command replies. -/
theorem exec_replies {i : Instr} {s : State} {h : Handler} {n : Nat} {r packet : List Byte}
    (hhandler : handlerOf s.cfg i = h) (hreq : s.flashReq = none) (hexec : s.exec = some ⟨n, r⟩)
    (hlen : h.ops.length = n) (hreply : h.reply r = packet) :
    exec i s = .next { s with
      phase := .send, cmd := none, exec := none, txQ := frameEncode s.cfg packet } := by
  subst hhandler hreply
  have hdone : (handlerOf s.cfg i).ops[n]? = none := List.getElem?_eq_none hlen.le
  rw [exec_eq_runHandler, runHandler_finish hexec hreq hdone]
  rfl

/-- A success that returns nothing replies the status alone (R67). -/
theorem Handler.reply_status {h : Handler} {r : List Byte} (hstatus : h.status = .none) (hbody : h.body r = []) :
    h.reply r = [h.replyOp, 0x04, 0x00, 0x00] := by
  rw [Handler.reply, hstatus, hbody, buildReply_success]
  rfl

/-! ### The k-th transaction -/

/-- A u32 address plus an offset is the offset address, wrapped or not. -/
theorem ofNat_toNat_add (addr : Addr) (k : Nat) : BitVec.ofNat 32 (addr.toNat + k) = addr + BitVec.ofNat 32 k := by
  rw [BitVec.ofNat_add, BitVec.ofNat_toNat, BitVec.setWidth_eq]

theorem getElem?_readOps (start : Addr) {n k : Nat} (hk : k < n) :
    (readOps start.toNat n)[k]? = some ⟨.readByte, start + BitVec.ofNat 32 k, 0⟩ := by
  simp [readOps, hk, FlashReq.readByte, ofNat_toNat_add]

theorem getElem?_writeOps (addr : Addr) {data : List Byte} {k : Nat} {v : Byte} (hv : data[k]? = some v) :
    (writeOps addr.toNat data)[k]? = some ⟨.writeByte, addr + BitVec.ofNat 32 k, v⟩ := by
  simp [writeOps, hv, FlashReq.writeByte, ofNat_toNat_add]

theorem getElem?_eraseOps (cfg : Cfg) (start : Addr) {stop k : Nat} (hk : k < (stop - start.toNat) / cfg.sectorSize.toNat) :
    (eraseOps cfg start.toNat stop)[k]? =
      some ⟨.eraseSector, start + BitVec.ofNat 32 (k * cfg.sectorSize.toNat), 0⟩ := by
  simp [eraseOps, hk, FlashReq.eraseSector, ofNat_toNat_add]

/-! ### The six commands with transactions -/

theorem identifyHandler_reply (m d : Byte) : identifyHandler.reply [m, d] = [0x01, 0x06, 0x00, 0x00, m, d] := by
  have hheader : le16 (BitVec.ofNat 16 (4 + 2)) = [0x06, 0x00] := by decide
  rw [Handler.reply, identifyHandler, buildReply_success]
  simp [hheader, opIdentify]

/-- Settles O19: the handler's list is the four operations, each without address and data. -/
theorem identifyIssuesFourTransactionsAndReplies : Obligations.IdentifyIssuesFourTransactionsAndReplies := by
  intro s hreq
  refine ⟨fun k op r hop hexec => exec_issues rfl hreq hexec ?_,
    fun m d hexec => exec_replies rfl hreq hexec rfl (identifyHandler_reply m d)⟩
  have hops : identifyHandler.ops = [FlashOp.enterId, .readMfrId, .readDevId, .leaveId].map .bare := rfl
  rw [handlerOf, hops, List.getElem?_map, hop]
  rfl

/-- Settles O20: the check passes, so the handler's list is the reads of the range. -/
theorem readIssuesAscendingReadsAndReplies : Obligations.ReadIssuesAscendingReadsAndReplies := by
  intro s addr len hreq hpos hmtl hrange
  have hhandler : handlerOf s.cfg (.read addr len) = _ := Handler.guarded_of_pass (readCheck_eq_none hpos hmtl hrange)
  refine ⟨fun k r hk hexec => exec_issues hhandler hreq hexec (getElem?_readOps addr hk), fun r hr hexec => ?_⟩
  refine exec_replies hhandler hreq hexec (readOps_length _ _) ?_
  rw [Handler.reply, buildReply_success]
  simp only [List.take_of_length_le hr.le, hr]
  rfl

/-- Settles O21: the check passes, so the handler's list is the programs of the data. -/
theorem writeIssuesAscendingProgramsAndReplies : Obligations.WriteIssuesAscendingProgramsAndReplies := by
  intro s addr data hreq hpos hmtl hrange
  have hdata : data ≠ [] := List.ne_nil_of_length_pos hpos
  have hhandler : handlerOf s.cfg (.write addr data) = _ :=
    Handler.guarded_of_pass ((if_neg hdata).trans (writeCheck_eq_none hpos hmtl hrange))
  exact ⟨fun k v r hv hexec => exec_issues hhandler hreq hexec (getElem?_writeOps addr hv),
    fun r hexec => exec_replies hhandler hreq hexec (writeOps_length _ _) (Handler.reply_status rfl rfl)⟩

/-- Settles O22: the check passes, so the handler's list is the reads of the range; the CRC has two bytes. -/
theorem crcIssuesAscendingReadsAndReplies : Obligations.CrcIssuesAscendingReadsAndReplies := by
  intro s start stop hreq hlt hstop
  have hhandler : handlerOf s.cfg (.crc start stop) = _ := Handler.guarded_of_pass (crcCheck_eq_none ⟨hlt, hstop⟩)
  refine ⟨fun k r hk hexec => exec_issues hhandler hreq hexec (getElem?_readOps start hk), fun r hr hexec => ?_⟩
  refine exec_replies hhandler hreq hexec (readOps_length _ _) ?_
  rw [Handler.reply, buildReply_success]
  simp only [List.take_of_length_le hr.le, le16_length]
  rfl

/-- Settles O23: the check passes, so the handler's list is the erases of the range's sectors. -/
theorem eraseIssuesOneEraseASectorAndReplies : Obligations.EraseIssuesOneEraseASectorAndReplies := by
  intro s start stop hreq hlt hrange hstart hstop
  have hhandler : handlerOf s.cfg (.erase start stop) = _ :=
    Handler.guarded_of_pass (eraseCheck_eq_none ⟨hlt, hrange⟩ hstart hstop)
  exact ⟨fun k r hk hexec => exec_issues hhandler hreq hexec (getElem?_eraseOps s.cfg start hk),
    fun r hexec => exec_replies hhandler hreq hexec (eraseOps_length _ _ _) (Handler.reply_status rfl rfl)⟩

/-- Settles O24: the handler's list is the one erase, with no check before it. -/
theorem eraseChipIssuesOneEraseAndReplies : Obligations.EraseChipIssuesOneEraseAndReplies := fun _ hreq =>
  ⟨fun _ hexec => exec_issues rfl hreq hexec rfl,
    fun _ hexec => exec_replies rfl hreq hexec rfl (Handler.reply_status rfl rfl)⟩

/-! ### The frame of one step -/

/-- Settles O28, by what a handler's step can be: the driver's response, a request issued, or the final step. -/
theorem commandStepFrame : Obligations.CommandStepFrame := by
  intro i s t hstep
  rw [exec_eq_runHandler] at hstep
  obtain ⟨p, -, ⟨q, hreq, -, rfl⟩ | ⟨q, hreq, -, rfl⟩ | ⟨hreq, -, rfl⟩⟩ := runHandler_cases hstep
  case inl =>
    refine ⟨rfl, rfl, rfl, rfl, by simp [hreq], fun q' hq' => ?_, .inl ⟨by simp, rfl, rfl, rfl, _, rfl⟩⟩
    obtain rfl : q = q' := Option.some.inj (hreq.symm.trans hq')
    exact ⟨rfl, rfl, rfl, rfl, fun a ha => FlashArray.readCell_after s.cfg q s.flash.array a ha⟩
  case inr.inl =>
    exact ⟨rfl, rfl, rfl, rfl, fun _ => rfl, by simp [hreq], .inl ⟨by simp, rfl, rfl, rfl, _, rfl⟩⟩
  case inr.inr =>
    exact ⟨rfl, rfl, rfl, rfl, fun _ => rfl, by simp [hreq], .inr ⟨rfl, hreq, rfl, rfl, rfl⟩⟩

end Sys2Proof.Machine
end

section
/-! PROOFS. A whole frame, from its first byte received to the last byte of its reply sent (43_dispatcher.md R114), and a complete
run of a command sequence (70_reset_and_hazards.md R151). -/

namespace Sys2Proof.Machine

/-! ### Runs -/

theorem Reaches.refl (s : State) : Reaches s s := ⟨0, rfl⟩

theorem Reaches.of_runSteps {k : Nat} {s t : State} (h : runSteps k s = .next t) : Reaches s t := ⟨k, h⟩

theorem Reaches.of_step {s t : State} (h : step s = .next t) : Reaches s t := ⟨1, runSteps_succ h⟩

theorem Reaches.trans {s t u : State} (hst : Reaches s t) (htu : Reaches t u) : Reaches s u := by
  obtain ⟨a, ha⟩ := hst
  obtain ⟨b, hb⟩ := htu
  exact ⟨a + b, (runSteps_add ha).trans hb⟩

/-! ### Receiving -/

/-- Bytes that complete no frame and raise no framing error begin with one that only moves the decoder. -/
theorem decStep_quiet_of_feed_cons {cfg : Cfg} {d d' : Decoder} {b : Byte} {bs : List Byte}
    (hfeed : feed cfg d (b :: bs) = some ⟨d', [], []⟩) :
    ∃ o, decStep cfg d b = some (.quiet o) ∧ feed cfg o bs = some ⟨d', [], []⟩ := by
  cases hdec : decStep cfg d b with
  | none => simp [feed, hdec] at hfeed
  | some out =>
    obtain ⟨o, emit, err⟩ := out
    rw [feed_cons hdec, feedAfter, Option.map_eq_some_iff] at hfeed
    obtain ⟨⟨dr, frames, errs⟩, hrest, heq⟩ := hfeed
    simp only [FeedOut.mk.injEq, List.append_eq_nil_iff, Option.toList_eq_nil_iff] at heq
    obtain ⟨rfl, ⟨rfl, rfl⟩, rfl, rfl⟩ := heq
    exact ⟨o, rfl, hrest⟩

/-- Bytes that complete no frame and raise no framing error are taken one by one, and only move the decoder (R106). -/
theorem reaches_of_quiet_feed {s : State} {bs rest : List Byte} {d : Decoder} (hlegal : s.cfg.legal = true)
    (hphase : s.phase = .recv) (hsched : s.sched = []) (hrx : s.rx = bs ++ rest)
    (hfeed : feed s.cfg s.dec bs = some ⟨d, [], []⟩) :
    Reaches s { s with rx := rest, dec := d, trace := s.trace ++ bs.map .rxByte } := by
  induction bs generalizing s with
  | nil =>
    cases hfeed
    obtain rfl : s.rx = rest := hrx
    simpa using Reaches.refl s
  | cons b bs ih =>
    obtain ⟨o, hdec, hrest⟩ := decStep_quiet_of_feed_cons hfeed
    obtain ⟨hquiet, -⟩ := receiveTakesOneByte s b (bs ++ rest) _ hlegal hphase hsched hrx hdec
    refine (Reaches.of_step (hquiet rfl)).trans ?_
    simpa [DecOut.quiet] using
      ih (s := { s with rx := bs ++ rest, dec := o, trace := s.trace ++ [.rxByte b] }) hlegal hphase hsched rfl hrest

/-- `s` when it has taken the encoded frame of `f`, with `rest` behind it, and handed `f` over. -/
def afterReceiving (f rest : List Byte) (s : State) : State :=
  atHandover f { s with rx := rest, trace := s.trace ++ (frameEncode s.cfg f).map .rxByte }

theorem atEntry_afterReceiving {s : State} (hlegal : s.cfg.legal = true) (f rest : List Byte) :
    AtEntry f (afterReceiving f rest s) :=
  ⟨hlegal, rfl, rfl, rfl, rfl, rfl⟩

/-- A quiescent block takes a whole encoded frame: its body fits the buffer, and its closing marker completes it (R106, R77). -/
theorem reaches_afterReceiving {s : State} {f rest : List Byte} (hlegal : s.cfg.legal = true) (hquiet : Quiescent s)
    (hsched : s.sched = []) (hrx : s.rx = frameEncode s.cfg f ++ rest)
    (hemits : 1 ≤ f.length ∨ s.cfg.emptyFrame = .emit) (hfits : f.length ≤ s.cfg.maxPacket) :
    Reaches s (afterReceiving f rest s) := by
  have hc := Cfg.legalCodec_of_legal hlegal
  have hkept : ¬(f = [] ∧ s.cfg.emptyFrame = .ignore) := by
    rintro ⟨rfl, hignore⟩
    simp [hignore] at hemits
  have hbody : feed s.cfg ⟨.inFrame, []⟩ (frameBody s.cfg f) = some ⟨⟨.inFrame, f⟩, [], []⟩ := by
    simpa using feed_frameBody hc (buf := []) (by simpa using hfits) []
  have hopened : feed s.cfg s.dec (s.cfg.marker :: frameBody s.cfg f) = some ⟨⟨.inFrame, f⟩, [], []⟩ := by
    rw [hquiet.decoder, Decoder.fresh, feed_cons (decStep_idle_marker s.cfg []), feedAfter_quiet, hbody]
  have hclosed : decStep s.cfg ⟨.inFrame, f⟩ s.cfg.marker = some ⟨Decoder.fresh, some f, none⟩ := by
    rw [decStep_inFrame_marker, closeFrame_of_not_ignored hkept]
  have hreceived := reaches_of_quiet_feed (rest := s.cfg.marker :: rest) hlegal hquiet.phase hsched
    (by simp [hrx, frameEncode]) hopened
  obtain ⟨-, hhandover⟩ := receiveTakesOneByte
    { s with
      rx := s.cfg.marker :: rest, dec := ⟨.inFrame, f⟩
      trace := s.trace ++ (s.cfg.marker :: frameBody s.cfg f).map .rxByte }
    s.cfg.marker rest _ hlegal hquiet.phase hsched rfl hclosed
  refine hreceived.trans ?_
  simpa [afterReceiving, atHandover, frameEncode, hquiet.decoder, hquiet.request, hsched, Progress.start] using
    Reaches.of_step (hhandover f rfl)

/-! ### Sending -/

/-- `s` when all of `tx_q` went out. -/
def afterSending (s : State) : State :=
  { s with txQ := [], phase := .recv, trace := s.trace ++ s.txQ.map .txByte }

/-- The whole of `tx_q` goes out, and the block is back in `RECV` (R108). -/
theorem reaches_afterSending {s : State} {b : Byte} {bs : List Byte} (hlegal : s.cfg.legal = true) (hphase : s.phase = .send)
    (hsched : s.sched = []) (htx : s.txQ = b :: bs) : Reaches s (afterSending s) := by
  induction bs generalizing s b with
  | nil =>
    have hlast := sendEmitsOneByte s b [] hlegal hphase hsched htx
    simpa [afterSending, htx] using Reaches.of_step hlast
  | cons c bs ih =>
    have hfirst := sendEmitsOneByte s b (c :: bs) hlegal hphase hsched htx
    refine (Reaches.of_step hfirst).trans ?_
    simpa [afterSending, htx] using
      ih (s := { s with txQ := c :: bs, phase := .send, trace := s.trace ++ [.txByte b] }) hlegal rfl hsched rfl

/-! ### One frame -/

/-- The end of one frame: everything but the bytes held, the driver and the trace is as it was (R114). -/
def afterFrame (f rest : List Byte) (s : State) : State :=
  { s with
    rx := rest
    flash := flashAfterAll s.cfg (dispatch s.cfg f).ops s.flash
    trace := s.trace ++ (frameEncode s.cfg f).map Event.rxByte ++
      flashEventsOf s.cfg (dispatch s.cfg f).ops s.flash ++
      (frameEncode s.cfg (replyPacket s.cfg f s.flash)).map Event.txByte }

/-- What receiving, executing and sending set on the way is back at a quiescent block's values. -/
theorem afterSending_afterExec_afterReceiving {s : State} (hquiet : Quiescent s) (hsched : s.sched = []) (f rest : List Byte) :
    afterSending (afterExec f (afterReceiving f rest s)) = afterFrame f rest s := by
  obtain ⟨hphase, -, hcmd, hexec, hreply, hrequest⟩ := hquiet
  simp [afterSending, afterExec, afterReceiving, atHandover, afterFrame, hphase, hcmd, hexec, hreply, hrequest, hsched]

/-- Settles O36, in three parts: the frame is received, its handler runs to its reply, and the reply is sent. -/
theorem exactlyOneReplyPerFrame : Obligations.ExactlyOneReplyPerFrame := by
  intro s f rest hlegal hquiet hsched hrx hemits hfits
  have hreceived := reaches_afterReceiving hlegal hquiet hsched hrx hemits hfits
  have hhandled := Reaches.of_runSteps (handlerRunsToItsReply f _ (atEntry_afterReceiving hlegal f rest))
  have hsent := reaches_afterSending (s := afterExec f (afterReceiving f rest s)) hlegal rfl rfl rfl
  rw [afterSending_afterExec_afterReceiving hquiet hsched] at hsent
  exact hreceived.trans (hhandled.trans hsent)

/-! ### A run of commands -/

theorem afterFrame_quiescent {s : State} (hquiet : Quiescent s) (f rest : List Byte) : Quiescent (afterFrame f rest s) :=
  ⟨hquiet.phase, hquiet.decoder, hquiet.cmd, hquiet.exec, hquiet.reply, hquiet.request⟩

/-- One frame sends its encoded reply and nothing else. -/
theorem sentBytes_afterFrame (f rest : List Byte) (s : State) :
    sentBytes (afterFrame f rest s).trace = sentBytes s.trace ++ frameEncode s.cfg (replyPacket s.cfg f s.flash) := by
  simp [afterFrame, sentBytes_append, sentBytes_map_rxByte, sentBytes_map_txByte, sentBytes_flashEventsOf]

theorem commandAnswered_afterFrame {s : State} {c : List Byte} (hlegal : s.cfg.legal = true) (hquiet : Quiescent s)
    (hsched : s.sched = []) (hrx : s.rx = []) (hemits : 1 ≤ c.length ∨ s.cfg.emptyFrame = .emit)
    (hfits : c.length ≤ s.cfg.maxPacket) : CommandAnswered s c (afterFrame c [] s) where
  before := hquiet
  nothingHeld := hrx
  reached :=
    have hoffered : Quiescent (s.offer (frameEncode s.cfg c)) :=
      ⟨hquiet.phase, hquiet.decoder, hquiet.cmd, hquiet.exec, hquiet.reply, hquiet.request⟩
    exactlyOneReplyPerFrame _ c [] hlegal hoffered hsched (by simp [hrx]) hemits hfits
  unbroken := ⟨[], rfl, List.not_mem_nil⟩
  taken := rfl
  replied := ⟨_, _, _, sentBytes_afterFrame c [] s⟩
  settled := afterFrame_quiescent hquiet c []

theorem repliesOf_length (cfg : Cfg) (cs : List (List Byte)) (f : Flash) : (repliesOf cfg cs f).length = cs.length := by
  induction cs generalizing f with
  | nil => rfl
  | cons c cs ih => rw [repliesOf, List.length_cons, ih, List.length_cons]

/-- Settles O37, by induction on the sequence: the end of one frame is a state in which the rest of the run can begin. -/
theorem commandRunsComplete : Obligations.CommandRunsComplete := by
  intro s cs hlegal hquiet hsched hrx hcs
  induction cs generalizing s with
  | nil => exact ⟨s, .done s hquiet, hquiet, rfl, rfl, by simp [repliesOf], rfl⟩
  | cons c cs ih =>
    obtain ⟨hemits, hfits⟩ := hcs c List.mem_cons_self
    obtain ⟨t, hrun, hsettled, hcfg, hflash, hsent, -⟩ := ih (afterFrame c [] s) hlegal (afterFrame_quiescent hquiet c [])
      hsched rfl fun d hd => hcs d (List.mem_cons_of_mem c hd)
    have hanswered := commandAnswered_afterFrame hlegal hquiet hsched hrx hemits hfits
    refine ⟨t, .command s _ t c cs hanswered hrun, hsettled, hcfg, hflash, ?_, repliesOf_length _ _ _⟩
    rw [hsent, sentBytes_afterFrame, repliesOf, List.flatMap_cons, List.append_assoc]
    rfl

end Sys2Proof.Machine
end

section
/-! PROOFS. The command handlers on their failure paths (42_validator.md R103, 44_commands.md R125, R128, R129): a failed check leaves
a fixed handler, which has no transaction and replies its status alone. -/

namespace Sys2Proof.Machine

/-! ### Checks that fail -/

theorem readCheck_of_too_long {cfg : Cfg} {addr len : Nat} (hlong : cfg.mtl.toNat < len) :
    readCheck cfg addr len = .badLength := by
  rw [readCheck, if_pos hlong]

theorem writeCheck_of_too_long {cfg : Cfg} {addr n : Nat} (hlong : cfg.mtl.toNat < n) :
    writeCheck cfg addr n = .badLength := by
  rw [writeCheck, if_pos hlong]

theorem readCheck_of_bad_range {cfg : Cfg} {addr len : Nat} (hmtl : len ≤ cfg.mtl.toNat)
    (hrange : ¬ rangeOK cfg addr (addr + len)) : readCheck cfg addr len = .badAddress := by
  rw [readCheck, if_neg (Nat.not_lt.mpr hmtl), if_neg hrange]

theorem writeCheck_of_bad_range {cfg : Cfg} {addr n : Nat} (hmtl : n ≤ cfg.mtl.toNat)
    (hrange : ¬ rangeOK cfg addr (addr + n)) : writeCheck cfg addr n = .badAddress := by
  rw [writeCheck, if_neg (Nat.not_lt.mpr hmtl), if_neg hrange]

/-! ### The step of a command that fails -/

theorem Handler.guarded_of_fail {check : StatusCode} {h : Handler} (hfail : check ≠ .none) :
    h.guarded check = Handler.fixed h.replyOp check := by
  obtain ⟨hpass, -⟩ | ⟨-, heq⟩ := Handler.guarded_cases check h
  · exact absurd hpass hfail
  · exact heq

/-- A `Write` with no data byte is refused before its validator check (R120). -/
theorem handlerOf_write_nil (cfg : Cfg) (addr : Addr) :
    handlerOf cfg (.write addr []) = Handler.fixed opWrite .badCommand := rfl

/-- Whatever its progress, a command with a fixed handler takes the final step: there is no transaction to issue. -/
theorem exec_of_fixed_handler {i : Instr} {s : State} {p : Progress} (st : StatusCode) (hexec : s.exec = some p)
    (hreq : s.flashReq = none) (hst : st ≠ .none) (hhandler : handlerOf s.cfg i = Handler.fixed i.opcode st) :
    exec i s = .next { s with
      phase := .send, cmd := none, exec := none
      txQ := frameEncode s.cfg [i.opcode, 0x04, 0x00, st.code] } := by
  have hdone : (Handler.fixed i.opcode st).ops[p.issued]? = none := List.getElem?_nil
  rw [exec_eq_runHandler, hhandler, runHandler_finish hexec hreq hdone, finish, Handler.fixed_reply _ hst]

theorem handlerOf_of_failed_check {cfg : Cfg} {i : Instr} {h : Handler} {check st : StatusCode} (hst : st ≠ .none)
    (hhandler : handlerOf cfg i = h.guarded check) (hcheck : check = st) :
    handlerOf cfg i = Handler.fixed i.opcode st := by
  have hop : h.replyOp = i.opcode := by
    rw [← handlerOf_replyOp cfg i, hhandler, Handler.guarded_replyOp]
  rw [hhandler, hcheck, Handler.guarded_of_fail hst, hop]

/-- Settles O26: each clause is a check that fails, or the refusal of an empty `Write`. -/
theorem failedChecksReplyTheStatusAlone : Obligations.FailedChecksReplyTheStatusAlone := by
  intro s p hexec hreq replies
  have hfails {i : Instr} {h : Handler} {check : StatusCode} (st : StatusCode) (hst : st ≠ .none)
      (hhandler : handlerOf s.cfg i = h.guarded check) (hcheck : check = st) : replies i [i.opcode, 0x04, 0x00, st.code] :=
    exec_of_fixed_handler st hexec hreq hst (handlerOf_of_failed_check hst hhandler hcheck)
  refine ⟨fun addr len hlong => ?readLength, fun addr len hmtl hrange => ?readRange, fun addr => ?writeEmpty,
    fun addr data hlong => ?writeLength, fun addr data hpos hmtl hrange => ?writeRange, fun start stop hrange => ?range,
    fun start stop halign => ?aligned⟩
  case readLength => exact hfails .badLength (by decide) rfl (readCheck_of_too_long hlong)
  case readRange =>
    have hbad : ¬ rangeOK s.cfg addr.toNat (addr.toNat + len.toNat) := by omega
    exact hfails .badAddress (by decide) rfl (readCheck_of_bad_range hmtl hbad)
  case writeEmpty => exact exec_of_fixed_handler .badCommand hexec hreq (by decide) (handlerOf_write_nil s.cfg addr)
  case writeLength =>
    have hdata : data ≠ [] := List.ne_nil_of_length_pos (Nat.zero_lt_of_lt hlong)
    exact hfails .badLength (by decide) rfl ((if_neg hdata).trans (writeCheck_of_too_long hlong))
  case writeRange =>
    have hdata : data ≠ [] := List.ne_nil_of_length_pos hpos
    have hbad : ¬ rangeOK s.cfg addr.toNat (addr.toNat + data.length) := by omega
    exact hfails .badAddress (by decide) rfl ((if_neg hdata).trans (writeCheck_of_bad_range hmtl hbad))
  case range =>
    have hbad : ¬ rangeOK s.cfg start.toNat stop.toNat := by omega
    exact ⟨hfails .badAddress (by decide) rfl (crcCheck_of_not_rangeOK hbad),
      hfails .badAddress (by decide) rfl (eraseCheck_of_not_aligned_range fun ⟨hok, _⟩ => hbad hok)⟩
  case aligned =>
    refine hfails .badAddress (by decide) rfl (eraseCheck_of_not_aligned_range ?_)
    rintro ⟨-, hstart, hstop⟩
    exact halign.elim (· hstart) (· hstop)

/-! ### The statuses that handlers answer -/

/-- What R125 and R129 ask of a handler. -/
structure Handler.FailsQuietly (h : Handler) : Prop where
  noTransaction : h.status ≠ .none → h.ops = []
  notReserved : h.status ≠ .testMode

theorem Handler.FailsQuietly.of_success {h : Handler} (hstatus : h.status = .none) : h.FailsQuietly where
  noTransaction := absurd hstatus
  notReserved := by simp [hstatus]

theorem Handler.FailsQuietly.fixed (op : Byte) {st : StatusCode} (hst : st ≠ .testMode) :
    (Handler.fixed op st).FailsQuietly where
  noTransaction := fun _ => rfl
  notReserved := hst

theorem Handler.FailsQuietly.guarded {check : StatusCode} {h : Handler} (hcheck : check ≠ .testMode)
    (hstatus : h.status = .none) : (h.guarded check).FailsQuietly := by
  obtain ⟨-, heq⟩ | ⟨-, heq⟩ := Handler.guarded_cases check h
  · rw [heq]
    exact .of_success hstatus
  · rw [heq]
    exact .fixed _ hcheck

theorem readCheck_ne_testMode (cfg : Cfg) (addr len : Nat) : readCheck cfg addr len ≠ .testMode := by
  unfold readCheck
  split_ifs <;> decide

theorem writeCheck_ne_testMode (cfg : Cfg) (addr n : Nat) : writeCheck cfg addr n ≠ .testMode := by
  unfold writeCheck
  split_ifs <;> decide

theorem crcCheck_ne_testMode (cfg : Cfg) (s e : Nat) : crcCheck cfg s e ≠ .testMode := by
  unfold crcCheck
  split_ifs <;> decide

theorem eraseCheck_ne_testMode (cfg : Cfg) (s e : Nat) : eraseCheck cfg s e ≠ .testMode := by
  unfold eraseCheck
  split_ifs <;> decide

theorem handlerOf_failsQuietly (cfg : Cfg) (i : Instr) : (handlerOf cfg i).FailsQuietly := by
  cases i with
  | ping | identify | erasechip => exact .of_success rfl
  | read addr len => exact .guarded (readCheck_ne_testMode _ _ _) rfl
  | write addr data =>
    refine .guarded ?_ rfl
    split_ifs
    · decide
    · exact writeCheck_ne_testMode _ _ _
  | crc start stop => exact .guarded (crcCheck_ne_testMode _ _ _) rfl
  | erase start stop => exact .guarded (eraseCheck_ne_testMode _ _ _) rfl

/-- Settles O27, by whether the frame carries a command. -/
theorem failedFramesTouchNoFlash : Obligations.FailedFramesTouchNoFlash := by
  intro cfg f
  have hquiet : (dispatch cfg f).FailsQuietly := by
    unfold dispatch
    cases decodeCommand f with
    | ok i => exact handlerOf_failsQuietly cfg i
    | error e => exact .fixed _ (by decide)
  exact ⟨hquiet.noTransaction, hquiet.notReserved⟩

end Sys2Proof.Machine
end

section
/-! PROOFS. The CRC (44_commands.md R122): the zero register is a fixed point of the shift, and the spec's reference values. -/

namespace Sys2Proof.Machine

theorem crcShifts_zero (n : Nat) : crcShifts n 0 = 0 := by
  induction n with
  | zero => rfl
  | succ n ih =>
    have hshift : crcShift 0 = 0 := by decide
    rw [crcShifts, hshift, ih]

theorem crcByte_zero_zero : crcByte 0#16 0 = 0#16 := crcShifts_zero 8

theorem crc16_replicate_zero (n : Nat) : crc16 (List.replicate n 0) = 0 := by
  induction n with
  | zero => rfl
  | succ n ih =>
    rw [List.replicate_succ, crc16, List.foldl_cons, crcByte_zero_zero]
    exact ih

/-- Settles O58: the reference values by evaluation, the zero bytes by the fixed point. -/
theorem crcReferenceValues : Obligations.CrcReferenceValues :=
  ⟨crc16_replicate_zero, by decide, by decide, by decide +kernel, by decide +kernel⟩

end Sys2Proof.Machine
end

section
/-! PROOFS. Framing errors (60_exceptions.md R127): a move that records one only took a byte, and emptied the decoder's buffer. -/

namespace Sys2Proof.Machine

/-- Of the moves, only the receipt of a byte records a framing error; every other move adds at most one event
to the trace. -/
theorem Move.receive_of_framingError {s t : State} (hm : Move s t) {b : Byte} {k : FramingError}
    (htrace : t.trace = s.trace ++ [.rxByte b, .framingError k]) :
    s.phase = .recv ∧ ∃ rest d, decStep s.cfg s.dec b = some ⟨d, none, some k⟩ ∧
      t = { s with rx := rest, dec := d, trace := s.trace ++ [.rxByte b, .framingError k] } := by
  cases hm with
  | wait | reset | finish => exact absurd (List.self_eq_append_right.mp htrace) (List.cons_ne_nil _ _)
  | handover | respond | issue | send => cases List.append_cancel_left htrace
  | @receive _ rest d err phase _ decoded =>
    cases err with
    | none => cases List.append_cancel_left htrace
    | some =>
      cases List.append_cancel_left htrace
      exact ⟨phase, rest, d, decoded, rfl⟩

/-- Settles O43: the one move there is sets only the bytes held, the decoder and the trace, and the decoder reports a framing
error with an empty buffer. -/
theorem framingErrorsStayInTheDecoder : Obligations.FramingErrorsStayInTheDecoder := by
  intro s t k _ _ hstep htrace
  obtain ⟨-, turns, hm⟩ := move_of_step hstep
  obtain ⟨hphase, rest, d, decoded, rfl⟩ := hm.receive_of_framingError htrace
  obtain ⟨-, -, -, herr⟩ := decStep_cases decoded
  obtain ⟨-, hempty⟩ := herr (Option.some_ne_none k)
  exact ⟨hphase, rfl, rfl, rfl, rfl, rfl, List.length_eq_zero_iff.mpr hempty⟩

end Sys2Proof.Machine
end

section
/-! PROOFS. The event `Reset` (70_reset_and_hazards.md R141): what it leaves of the flash array, and the whole step. -/

namespace Sys2Proof.Machine

/-- The span of a program or an erase covers every cell the request touches, so an untouched cell lies outside it. -/
theorem outside_flashSpan_of_untouched {cfg : Cfg} {q : FlashReq} {a : Nat} (h : q.touches cfg a = false) :
    a < (flashSpan cfg q).1 ∨ (flashSpan cfg q).1 + (flashSpan cfg q).2 ≤ a := by
  cases hop : q.op <;> simp only [FlashReq.touches, flashSpan, hop] at h ⊢
  case writeByte =>
    have hne := of_decide_eq_false h
    omega
  case eraseSector =>
    simp only [Bool.and_eq_false_iff, decide_eq_false_iff_not] at h
    omega
  case eraseChip => cases h
  all_goals exact .inr (Nat.zero_le a)

/-- A request cut short leaves the cells it does not touch: a drawn array's history of such a cell gains nothing, and the
reference array is overwritten on the request's span only (U19). -/
theorem Flash.readCell_interrupt (cfg : Cfg) (q : FlashReq) (f : Flash) (a : Nat) (h : q.touches cfg a = false) :
    (f.interrupt cfg q).array.readCell cfg a = f.array.readCell cfg a := by
  obtain ⟨array, idMode, draws⟩ := f
  cases array with
  | drawn changes =>
    simp only [Flash.interrupt, FlashArray.readCell]
    split
    · simp [List.filter_append, FlashChange.req, h]
    · rfl
  | reference cells =>
    refine Memory.read_writeAll_other cells _ _ a ?_
    simpa only [List.length_map, List.length_range] using outside_flashSpan_of_untouched h

/-- A `Reset` with no request outstanding leaves the array. -/
theorem flashAtReset_array_of_idle {s : State} (idle : s.flashReq = none) : (flashAtReset s).array = s.flash.array := by
  simp only [flashAtReset, idle]

/-- A `Reset` with a request outstanding cuts that request short. -/
theorem flashAtReset_of_outstanding {s : State} {q : FlashReq} (outstanding : s.flashReq = some q) :
    flashAtReset s = s.flash.interrupt s.cfg q := by
  simp only [flashAtReset, outstanding]

/-- A `reset` turn is the event `Reset`, whatever the phase. -/
theorem step_eq_resetEvent {s : State} {rest : List Turn} (hlegal : s.cfg.legal = true) (hsched : s.sched = .reset :: rest) :
    step s = .next (resetEvent { s with sched := rest }) := by
  simp only [step, turn, hlegal, hsched, if_true]

/-- Settles O49: the driver is the one `flashAtReset` gives, which cuts short the request outstanding, if there is one. -/
theorem resetAbandonsTheCommand : Obligations.ResetAbandonsTheCommand := by
  intro s rest hlegal hsched
  refine ⟨flashAtReset s, step_eq_resetEvent hlegal hsched, flashAtReset_idMode s, flashAtReset_array_of_idle, ?untouched⟩
  case untouched =>
    intro q outstanding a huntouched
    rw [flashAtReset_of_outstanding outstanding]
    exact Flash.readCell_interrupt s.cfg q s.flash a huntouched

end Sys2Proof.Machine
end
